-- ==== Sys2Proof/Word.lean ====
section
/-! DEFINITION. The codec's words: bytes, window indices, hash values and match tokens (spec 00_scope.md R9, R10: all
quantities are unsigned, bit 0 is the least significant). -/

namespace Sys2Proof

/-- A byte, an unsigned integer in [0, 255] (R9). -/
abbrev Byte := BitVec 8

/-- A window index in [0, 8191] (R22, R53). Adding to one wraps modulo `W = 8192`. -/
abbrev WinIx := BitVec 13

/-- The 16-bit hash of a 2-byte prefix (R24, R95). -/
abbrev Hash := BitVec 16

/-- A match token (R74). -/
abbrev Token := BitVec 16

end Sys2Proof
end

