-- ==== Sys2Proof/Config.lean ====
section
/-! DEFINITION. What an implementation fixes: the parameters the source gives (spec 00_scope.md R7), the open parameters
with the spec's defaults (R8), and the model's one free value. -/

namespace Sys2Proof

/-- `W`, the capacity of the circular window in bytes (R7). -/
abbrev Config.windowSize : Nat := 8192

/-- `MIN_LEN`, the shortest match (R7). -/
abbrev Config.minLen : Nat := 3

/-- `MAX_LEN`, the longest match (R7). -/
abbrev Config.maxLen : Nat := 10

/-- `BUCKET_CAP`, the candidates kept per hash bucket (R7). -/
abbrev Config.bucketCap : Nat := 32

/-- `SCAN_DEPTH`, the candidates examined per lookup (R7). -/
abbrev Config.scanDepth : Nat := 16

/-- `SLOTS`, the slots of a block (R7). -/
abbrev Config.slots : Nat := 8

/-- `CNT_BITS`, the width of the host's length register and of the counters (R8, decision D6). -/
abbrev Config.cntBits : Nat := 64

/-- `CMP_POLICY`, what LOOKUP compares the input against past the cursor (R8, R99, decision D5). -/
inductive CmpPolicy where
  /-- Past the cursor the candidate offers the input byte the decoder's copy will read. -/
  | overlap
  /-- The extension never passes the cursor. -/
  | stop
  deriving DecidableEq, Repr

/-- The open parameters of one instance that are plain data (R8). They do not change while the hardware exists (R44). -/
structure Config where
  /-- `WIN_FILL`, the value of every window byte after CLEAR. -/
  winFill : Byte
  /-- `CMP_POLICY`. -/
  cmpPolicy : CmpPolicy
  /-- `HASH`, as the exchanges of two hash values that lead from the spec's default to it, in order (log entry 9). Every
  injective HASH is one such list, and every such list is injective, as R95 requires. -/
  hashSwaps : List (Hash × Hash)
  deriving DecidableEq, Repr

/-- The spec's defaults (R8): no exchange, so that HASH is `b0 | (b1 << 8)`. -/
def Config.std : Config := { winFill := 0x00, cmpPolicy := .overlap, hashSwaps := [] }

/-- FREE VALUE (log entry 5): what byte `a` of `IN` holds while the host has written nothing there. The spec leaves it
unspecified (R45, R186, U9: any value). It has no body, so no proof can rest on a value of it. -/
opaque Config.inFill : Nat → Byte

end Sys2Proof
end

