-- ==== Sys2Proof/Syntax.lean ====
section
/-! DEFINITION. The syntax of the codec: one constructor per row of the opcode table (spec opcode_table.json), and the
four contexts in which a byte can stand. -/

namespace Sys2Proof

/-- Where a byte stands. The stream formats have no opcode field, so position alone says which format a byte belongs to
(R75); a value written to `CMD` is the fourth context (R88). -/
inductive Context where
  /-- A value written to the register `CMD` (format CMD8). -/
  | command
  /-- The first byte of a block (format F8). -/
  | flagByte
  /-- The payload of a slot whose flag bit is 1 (format L8). -/
  | literal
  /-- The payload of a slot whose flag bit is 0 (format M16). -/
  | token
  deriving DecidableEq, Repr

/-- The rows of the opcode table. -/
inductive Instr where
  /-- FLAG v: the flag byte of a block (R72, R127). -/
  | flag (v : Byte)
  /-- LIT b: a literal byte (R73, R129). -/
  | lit (b : Byte)
  /-- MATCH len, off: copy `len` window bytes from index `off` (R74, R85, R130). -/
  | matchTok (len : Nat) (off : WinIx)
  /-- CMD.CLEAR, code 1 (R146). -/
  | cmdClear
  /-- CMD.ENCODE, code 2 (R147). -/
  | cmdEncode
  /-- CMD.DECODE, code 3 (R148). -/
  | cmdDecode
  /-- CMD.NONE_00: code 0, no operation (R149). -/
  | cmdNone00
  /-- CMD.NONE_04_07: codes 4 to 7, no operation; `c` is the ignored field. -/
  | cmdNone0407 (c : BitVec 2)
  /-- CMD.NONE_08_0F: codes 8 to 15, no operation. -/
  | cmdNone080F (c : BitVec 3)
  /-- CMD.NONE_10_1F: codes 16 to 31, no operation. -/
  | cmdNone101F (c : BitVec 4)
  /-- CMD.NONE_20_3F: codes 32 to 63, no operation. -/
  | cmdNone203F (c : BitVec 5)
  /-- CMD.NONE_40_7F: codes 64 to 127, no operation. -/
  | cmdNone407F (c : BitVec 6)
  /-- CMD.NONE_80_FF: codes 128 to 255, no operation. -/
  | cmdNone80FF (c : BitVec 7)
  deriving DecidableEq, Repr

end Sys2Proof
end

