-- ==== Sys2Proof/WellFormed.lean ====
section
/-! DEFINITION. Which instructions the format can hold. Every field but the match length has the exact width of its
encoding, so the length is the one field to check (spec 10_state.md R27(b), 30_encoding.md R85). -/

namespace Sys2Proof

/-- "length ∈ [3,10] always" (R27(b)); every other operand is legal at every value (R80). -/
abbrev Instr.WellFormed : Instr → Prop
  | .matchTok len _ => Config.minLen ≤ len ∧ len ≤ Config.maxLen
  | .flag _ => True
  | .lit _ => True
  | .cmdClear => True
  | .cmdEncode => True
  | .cmdDecode => True
  | .cmdNone00 => True
  | .cmdNone0407 _ => True
  | .cmdNone080F _ => True
  | .cmdNone101F _ => True
  | .cmdNone203F _ => True
  | .cmdNone407F _ => True
  | .cmdNone80FF _ => True

/-- The context an instruction's bytes stand in (R75, R88). -/
def Instr.context : Instr → Context
  | .flag _ => .flagByte
  | .lit _ => .literal
  | .matchTok _ _ => .token
  | .cmdClear => .command
  | .cmdEncode => .command
  | .cmdDecode => .command
  | .cmdNone00 => .command
  | .cmdNone0407 _ => .command
  | .cmdNone080F _ => .command
  | .cmdNone101F _ => .command
  | .cmdNone203F _ => .command
  | .cmdNone407F _ => .command
  | .cmdNone80FF _ => .command

/-- How many bytes an instruction occupies (opcode_table.json, `length_bytes`; R72 to R74, R88). -/
def Instr.byteLength : Instr → Nat
  | .matchTok _ _ => 2
  | .flag _ => 1
  | .lit _ => 1
  | .cmdClear => 1
  | .cmdEncode => 1
  | .cmdDecode => 1
  | .cmdNone00 => 1
  | .cmdNone0407 _ => 1
  | .cmdNone080F _ => 1
  | .cmdNone101F _ => 1
  | .cmdNone203F _ => 1
  | .cmdNone407F _ => 1
  | .cmdNone80FF _ => 1

end Sys2Proof
end

