-- ==== Sys2Proof/Decode.lean ====
section
/-! DEFINITION. The decoder, total on any bytes and rejecting by name, and the encoder written from the same tables
(spec 30_encoding.md R72 to R77, R88; 20_memory.md R55). -/

namespace Sys2Proof

/-- What decoding answers: an instruction with the bytes after it, or a rejection by name. -/
inductive Decoded where
  /-- An instruction and the bytes that follow it. -/
  | ok (i : Instr) (rest : List Byte)
  /-- There is no byte at all. -/
  | noByte
  /-- A token's first byte stands alone: the stream is truncated (R81). -/
  | truncatedToken
  deriving DecidableEq, Repr

/-- `token = IN[a] | (IN[a+1] << 8)`: the byte at the lower index holds bits [7:0] (R55, R76). -/
def tokenOfBytes (lo hi : Byte) : Token := lo.setWidth 16 ||| (hi.setWidth 16 <<< 8)

/-- The byte appended first: `token & 0xFF` (R77). -/
def tokenLow (t : Token) : Byte := t.setWidth 8

/-- The byte appended second: `token >> 8` (R77). -/
def tokenHigh (t : Token) : Byte := (t >>> 8).setWidth 8

/-- `length = (token >> 13) + 3` (R76). -/
def tokenLen (t : Token) : Nat := (t >>> 13).toNat + Config.minLen

/-- `offset = token & (W-1)` (R76). -/
def tokenOff (t : Token) : WinIx := (t &&& 0x1FFF).setWidth 13

/-- `token = ((length - 3) << 13) | off` (R77). -/
def tokenOf (len : Nat) (off : WinIx) : Token :=
  (BitVec.ofNat 16 (len - Config.minLen) <<< 13) ||| off.setWidth 16

/-- The instruction a value written to `CMD` names (R88): three codes by their value, the others by the mask and match
of their row. -/
def decodeCommand (v : Byte) : Instr :=
  if v = 0x01 then .cmdClear
  else if v = 0x02 then .cmdEncode
  else if v = 0x03 then .cmdDecode
  else if v = 0x00 then .cmdNone00
  else if v &&& 0xFC = 0x04 then .cmdNone0407 (v.setWidth 2)
  else if v &&& 0xF8 = 0x08 then .cmdNone080F (v.setWidth 3)
  else if v &&& 0xF0 = 0x10 then .cmdNone101F (v.setWidth 4)
  else if v &&& 0xE0 = 0x20 then .cmdNone203F (v.setWidth 5)
  else if v &&& 0xC0 = 0x40 then .cmdNone407F (v.setWidth 6)
  else .cmdNone80FF (v.setWidth 7)

/-- The match and mask of an instruction's CMD8 row; none for the stream elements, which have no opcode bit
(opcode_table.json; R75, R88). -/
def commandRow : Instr → Option (Byte × Byte)
  | .flag _ => none
  | .lit _ => none
  | .matchTok _ _ => none
  | .cmdClear => some (0x01, 0xFF)
  | .cmdEncode => some (0x02, 0xFF)
  | .cmdDecode => some (0x03, 0xFF)
  | .cmdNone00 => some (0x00, 0xFF)
  | .cmdNone0407 _ => some (0x04, 0xFC)
  | .cmdNone080F _ => some (0x08, 0xF8)
  | .cmdNone101F _ => some (0x10, 0xF0)
  | .cmdNone203F _ => some (0x20, 0xE0)
  | .cmdNone407F _ => some (0x40, 0xC0)
  | .cmdNone80FF _ => some (0x80, 0x80)

/-- The match and mask of every CMD8 row (opcode_table.json; R88). -/
def commandRows : List (Byte × Byte) :=
  [(0x01, 0xFF), (0x02, 0xFF), (0x03, 0xFF), (0x00, 0xFF), (0x04, 0xFC), (0x08, 0xF8), (0x10, 0xF0), (0x20, 0xE0),
    (0x40, 0xC0), (0x80, 0x80)]

/-- The instruction at the head of `bytes` in context `c`, with the bytes after it. -/
def decode (c : Context) (bytes : List Byte) : Decoded :=
  match c, bytes with
  | _, [] => .noByte
  | .command, v :: rest => .ok (decodeCommand v) rest
  | .flagByte, v :: rest => .ok (.flag v) rest
  | .literal, b :: rest => .ok (.lit b) rest
  | .token, [_] => .truncatedToken
  | .token, lo :: hi :: rest =>
    .ok (.matchTok (tokenLen (tokenOfBytes lo hi)) (tokenOff (tokenOfBytes lo hi))) rest

/-- The words of an instruction, as the stream or the register `CMD` holds them (R72 to R77, R88). -/
def encode : Instr → List Byte
  | .flag v => [v]
  | .lit b => [b]
  | .matchTok len off => [tokenLow (tokenOf len off), tokenHigh (tokenOf len off)]
  | .cmdClear => [0x01]
  | .cmdEncode => [0x02]
  | .cmdDecode => [0x03]
  | .cmdNone00 => [0x00]
  | .cmdNone0407 c => [0x04 ||| c.setWidth 8]
  | .cmdNone080F c => [0x08 ||| c.setWidth 8]
  | .cmdNone101F c => [0x10 ||| c.setWidth 8]
  | .cmdNone203F c => [0x20 ||| c.setWidth 8]
  | .cmdNone407F c => [0x40 ||| c.setWidth 8]
  | .cmdNone80FF c => [0x80 ||| c.setWidth 8]

/-- The context the host's table words are read in. An 8-bit word is read as a command and a 16-bit word as a token:
FLAG and LIT have no opcode bit (R75), so no word alone can say that it is one of them (log entry 4). -/
def tableContext (nbits : Nat) : Context := if nbits ≤ 8 then .command else .token

/-- The bytes of a table word as the hardware stores them: low byte first (R55). -/
def tableBytes (nbits w : Nat) : List Byte :=
  if nbits ≤ 8 then [BitVec.ofNat 8 w] else [BitVec.ofNat 8 w, BitVec.ofNat 8 (w / 256)]

/-- What the decoder reads from a word of the opcode table. -/
def decodeTableWord (nbits w : Nat) : Option Instr :=
  match decode (tableContext nbits) (tableBytes nbits w) with
  | .ok i _ => some i
  | .noByte => none
  | .truncatedToken => none

end Sys2Proof
end

