-- ==== Sys2Proof/Machine/State.lean ====
section
/-! DEFINITION. The state of one codec instance (spec 10_state.md R20 to R47), the reasons a step can stop, and the state
after hardware reset (R45, R185). -/

namespace Sys2Proof.Machine

/-- `STATUS.state` (R37). -/
inductive RunState where
  | idle
  | busy
  | done
  | fault
  deriving DecidableEq, Repr

/-- `STATUS.err` (R37); code 3 is never produced (U8), so it has no constructor. -/
inductive ErrCode where
  | noError
  | emptyInput
  | format
  deriving DecidableEq, Repr

/-- `STATUS.op`, the last command accepted (R37). -/
inductive OpCode where
  | noOp
  | clear
  | encode
  | decode
  deriving DecidableEq, Repr

/-- One entry of a hash bucket: where a 2-byte prefix started (R25). -/
structure Candidate where
  /-- The window index of the prefix's first byte. -/
  widx : WinIx
  /-- The absolute position of that byte, counted from 0 at the last CLEAR. -/
  abs : Nat
  deriving DecidableEq, Repr

/-- What the host does next (R152, R187; log entry 3). Reads have no effect (R60) and need no event. -/
inductive HostEvent where
  /-- The host writes byte `b` to `IN[a]`. -/
  | writeIn (a : BitVec 64) (b : Byte)
  /-- The host writes the register `IN_LEN`, `CNT_BITS` = 64 bits wide. -/
  | writeInLen (n : BitVec 64)
  /-- The host writes the register `CMD`. -/
  | writeCmd (v : Byte)
  /-- The host leaves the codec one step. -/
  | pass
  /-- The host waits until `STATUS.state` is not BUSY (R187, step 4). -/
  | await
  /-- Hardware reset (R185). -/
  | hardReset
  deriving DecidableEq, Repr

/-- The state of one instance (R20). -/
structure State where
  /-- MODEL's own (log entry 8): the open parameters of the instance; no step writes them (R44). -/
  cfg : Config
  /-- `WIN` (R21): (index, byte) pairs; an index not listed reads `WIN_FILL`. -/
  win : List Host.Cell
  /-- `cur`, the write cursor (R22). -/
  cur : WinIx
  /-- `cnt`, the absolute byte counter (R23). -/
  cnt : Nat
  /-- `IDX` (R24): (hash, bucket) pairs, each bucket oldest first; a hash not listed has the empty bucket. -/
  idx : List (Nat × List Candidate)
  /-- `pos`, the encoder's input position (R28). -/
  pos : Nat
  /-- `flag_acc`, the flag byte under construction (R29). -/
  flagAcc : Byte
  /-- `slot`, the next slot of the current block, 0 to 8 (R30, R34). -/
  slot : Nat
  /-- `stage[0..15]` (R31). -/
  stage : Vector Byte 16
  /-- `stage_len` (R31). -/
  stageLen : Nat
  /-- `ip`, the decoder's input position (R32). -/
  ip : Nat
  /-- `flag_sr`, the flag byte of the block being decoded (R33). -/
  flagSr : Byte
  /-- `src`, the window index a copy reads next (R35). -/
  src : WinIx
  /-- `rem`, the bytes a copy still has to move (R35). -/
  rem : Nat
  /-- `IN` (R41): (index, byte) pairs; an index not listed has not been written by the host. -/
  inBuf : List Host.Cell
  /-- `IN_LEN` (R38). -/
  inLen : Nat
  /-- `OUT` (R42). -/
  out : List Byte
  /-- `STATUS.state` (R37). -/
  run : RunState
  /-- `STATUS.err` (R37). -/
  err : ErrCode
  /-- `STATUS.op` (R37). -/
  op : OpCode
  /-- `ERR_POS` (R40). -/
  errPos : Nat
  /-- MODEL's own (log entry 3): the host's accesses that have not happened yet, oldest first. -/
  hostIn : List HostEvent
  deriving DecidableEq, Repr

/-- The reasons a step can stop in a stuck state. The codec's own errors, EmptyInputError and FormatError, are next
states with `STATUS.state` = FAULT (R167) and are not among them. -/
inductive Fault where
  /-- Raised by execFlag, execLit and execMatchTok where the decoder's position does not select that element (R75,
  R127 to R130: the preconditions). `step` never raises it. Safe: the spec gives the element no effect there. -/
  | elementNotSelected
  /-- Raised by `step` when `STATUS.state` is BUSY and `STATUS.op` names neither ENCODE nor DECODE. No run from reset
  reaches such a state (R145). Safe. -/
  | busyWithoutOperation
  deriving DecidableEq, Repr

/-- The reasons a step can be refused. -/
inductive Refusal where
  /-- Raised by an arm of `exec` whose instruction has no meaning yet. Safe. -/
  | notModelled (mnemonic : String)
  /-- Raised by `step` when the host writes `IN` or `IN_LEN` while `STATUS.state` is BUSY: a breach of a host duty about
  which the spec says nothing (R66, R152, U6). Safe. -/
  | inputChangedWhileBusy
  deriving DecidableEq, Repr

/-- The machine right after hardware reset (R45, R185). `stage` and `src` have no reset value in the spec: zeros, a
DESIGN CHOICE (log entries 6 and 7). `IN` is unspecified: nothing is listed (log entry 5). -/
def State.reset : State where
  cfg := Config.std
  win := []
  cur := 0
  cnt := 0
  idx := []
  pos := 0
  flagAcc := 0
  slot := 0
  stage := Vector.replicate 16 0
  stageLen := 0
  ip := 0
  flagSr := 0
  src := 0
  rem := 0
  inBuf := []
  inLen := 0
  out := []
  run := .idle
  err := .noError
  op := .noOp
  errPos := 0
  hostIn := []

end Sys2Proof.Machine
end

