-- ==== Sys2Proof/Machine/Flags.lean ====
section
/-! DEFINITION. The flag-like state (spec 10_state.md R46): the flag bytes' bits and the fields of `STATUS` (R37). -/

namespace Sys2Proof.Machine

/-- Bit `i` of a flag byte: 1 says that slot `i` is a literal (R72). -/
def flagBit (f : Byte) (i : Nat) : Bool := f.getLsbD i

/-- `flag_acc | (1 << slot)` (R116). -/
def withFlagBit (f : Byte) (i : Nat) : Byte := f ||| (1#8 <<< i)

/-- The code of `STATUS.state` (R37). -/
def RunState.code : RunState → BitVec 2
  | .idle => 0
  | .busy => 1
  | .done => 2
  | .fault => 3

/-- The code of `STATUS.err` (R37, R161, R162). -/
def ErrCode.code : ErrCode → BitVec 2
  | .noError => 0
  | .emptyInput => 1
  | .format => 2

/-- The code of `STATUS.op` (R37). -/
def OpCode.code : OpCode → BitVec 2
  | .noOp => 0
  | .clear => 1
  | .encode => 2
  | .decode => 3

/-- The register `STATUS`: bits [1:0] state, [3:2] err, [5:4] op, [7:6] zero (R37). -/
def statusByte (s : State) : Byte :=
  s.run.code.setWidth 8 ||| (s.err.code.setWidth 8 <<< 2) ||| (s.op.code.setWidth 8 <<< 4)

end Sys2Proof.Machine
end

