-- ==== Sys2Proof/Machine/Memory.lean ====
section
/-! DEFINITION. Sparse tables in one canonical form, the byte memories `WIN` and `IN` and the hash index `IDX` over them
(spec 20_memory.md R50 to R54, R58). -/

namespace Sys2Proof.Machine

/-- What a table lists for key `k`. -/
def Table.get {α : Type} : List (Nat × α) → Nat → Option α
  | [], _ => none
  | (k', v) :: rest, k => if k' = k then some v else Table.get rest k

/-- The table with `v` listed for `k`, at its place in the rising order of keys. -/
def Table.put {α : Type} : List (Nat × α) → Nat → α → List (Nat × α)
  | [], k, v => [(k, v)]
  | (k', v') :: rest, k, v =>
    if k < k' then (k, v) :: (k', v') :: rest
    else if k = k' then (k, v) :: rest
    else (k', v') :: Table.put rest k v

/-- The table with nothing listed for `k`. -/
def Table.del {α : Type} (t : List (Nat × α)) (k : Nat) : List (Nat × α) :=
  t.filter fun e => decide (e.1 ≠ k)

/-- The keys rise strictly, so each is listed once. -/
abbrev Table.Sorted {α : Type} (t : List (Nat × α)) : Prop := t.Pairwise fun x y => x.1 < y.1

/-- What address `a` of a byte memory reads as. `fill` is what an unlisted address reads as; `none` means that it has no
value. -/
def Memory.read (fill : Option Byte) (m : List Host.Cell) (a : Nat) : Option Byte :=
  match Table.get m a with
  | some b => some b
  | none => fill

/-- The memory with byte `b` at address `a`; writing what an unlisted address reads as removes the entry. -/
def Memory.write (fill : Option Byte) (m : List Host.Cell) (a : Nat) (b : Byte) : List Host.Cell :=
  if fill = some b then Table.del m a else Table.put m a b

/-- The canonical form: addresses strictly rising, and no entry equal to what an unlisted address reads as. -/
abbrev Memory.wf (fill : Option Byte) (m : List Host.Cell) : Prop :=
  Table.Sorted m ∧ ∀ e ∈ m, fill ≠ some e.2

/-- `WIN[i]` (R53). A cell that nothing has stored to since CLEAR reads `WIN_FILL` (R137). -/
def winByte (s : State) (i : WinIx) : Byte := (Memory.read (some s.cfg.winFill) s.win i.toNat).getD s.cfg.winFill

/-- `WIN[i] <- b`. -/
def setWin (i : WinIx) (b : Byte) (s : State) : State :=
  { s with win := Memory.write (some s.cfg.winFill) s.win i.toNat b }

/-- `IN[a]` (R51). A byte the host has not written is the free value (log entry 5). -/
def inByte (s : State) (a : Nat) : Byte := (Memory.read none s.inBuf a).getD (Config.inFill a)

/-- The host's store of byte `b` to `IN[a]` (R41). -/
def setIn (a : Nat) (b : Byte) (s : State) : State := { s with inBuf := Memory.write none s.inBuf a b }

/-- The bytes `IN[0 .. IN_LEN-1]`. -/
def inBytes (s : State) : List Byte := (List.range s.inLen).map (inByte s)

/-- `IDX[h]`: an absent bucket is an empty one (R24). -/
def bucket (s : State) (h : Hash) : List Candidate := (Table.get s.idx h.toNat).getD []

/-- `OUT_LEN`, which is `|OUT|` (R39). -/
def State.outLen (s : State) : Nat := s.out.length

end Sys2Proof.Machine
end

