-- ==== Sys2Proof/Machine/Ops.lean ====
section
/-! DEFINITION. The named operations the meanings share: fault entry (spec 60_exceptions.md R167), the acceptance of a
command that ends a fault (R169, 43_host_commands.md R145), CLEAR (40_dictionary.md R91), the decoder's window write
(42_decoder.md R131) and the end of an operation (R153). -/

namespace Sys2Proof.Machine

/-- `raise E(info)` (R167): the error's code, its position, FAULT, and nothing else. -/
def raiseError (e : ErrCode) (info : Nat) (s : State) : State :=
  { s with err := e, errPos := info, run := .fault }

/-- The acceptance of a command (R145). It is also the only way out of a fault (R168, R169). -/
def accept (o : OpCode) (s : State) : State :=
  { s with op := o, err := .noError, errPos := 0, out := [] }

/-- CLEAR (R91) with the working and host registers of R45's column "after CLEAR", `STATUS` apart: `stage`, `src`, `IN`
and `IN_LEN` stay. -/
def clearInstance (s : State) : State :=
  { s with
    win := [], cur := 0, cnt := 0, idx := [], pos := 0, flagAcc := 0, slot := 0, stageLen := 0, ip := 0, flagSr := 0,
    rem := 0, out := [], errPos := 0 }

/-- The start of an operation that runs (R145). -/
def setBusy (s : State) : State := { s with run := .busy }

/-- The end of an operation, *done* (R133, R153). -/
def finish (s : State) : State := { s with run := .done }

/-- WRITE(b), the decoder's window write (R131): store at the cursor, advance it, append to `OUT`. -/
def writeByte (b : Byte) (s : State) : State :=
  { setWin s.cur b s with cur := s.cur + 1, out := s.out ++ [b] }

/-- `ip <- ip + k` (R32). -/
def advanceIp (k : Nat) (s : State) : State := { s with ip := s.ip + k }

/-- `slot <- slot + 1` (R114, R128). -/
def nextSlot (s : State) : State := { s with slot := s.slot + 1 }

/-- The registers of a copy before its first byte (R130). -/
def loadCopy (len : Nat) (off : WinIx) (s : State) : State := { s with rem := len, src := off }

/-- One iteration of a copy: read `WIN[src]` first, then WRITE, then advance `src` (R63, R130). -/
def copyOne (s : State) : State :=
  let t := writeByte (winByte s s.src) s
  { t with src := t.src + 1, rem := t.rem - 1 }

/-- `n` iterations of a copy, one byte at a time (R59, R63). -/
def copyBytes : Nat → State → State
  | 0, s => s
  | n + 1, s => copyBytes n (copyOne s)

end Sys2Proof.Machine
end

