-- ==== Sys2Proof/Machine/Operands.lean ====
section
/-! DEFINITION. How the decoder's position selects an element and its operand bytes (spec 30_encoding.md R75,
42_decoder.md R127 to R130), and how the encoder lays a payload down (41_encoder.md R115, R116). -/

namespace Sys2Proof.Machine

/-- The format of the byte at `ip`: FLAG at the start of the stream or after a complete block, else LIT or MATCH by bit
`slot` of the current flag byte (R75, R128). -/
def contextAt (s : State) : Context :=
  if s.ip = 0 ∨ Config.slots ≤ s.slot then .flagByte
  else if flagBit s.flagSr s.slot then .literal
  else .token

/-- The decoder runs, input remains, and its position selects an element of context `c` (the preconditions of R127,
R129 and R130). -/
abbrev Selects (s : State) (c : Context) : Prop :=
  s.run = .busy ∧ s.op = .decode ∧ s.ip < s.inLen ∧ contextAt s = c

/-- The bytes of `IN` from `ip` on that an element can need: at most two, none beyond `IN_LEN - 1` (R51). -/
def operandBytes (s : State) : List Byte :=
  (List.range (min 2 (s.inLen - s.ip))).map fun k => inByte s (s.ip + k)

/-- `stage[stage_len] <- b; stage_len <- stage_len + 1` (R115, R116). -/
def stageByte (b : Byte) (s : State) : State :=
  { s with stage := s.stage.setIfInBounds s.stageLen b, stageLen := s.stageLen + 1 }

/-- The payload bytes staged so far, in slot order (R31). -/
def staged (s : State) : List Byte := s.stage.toList.take s.stageLen

end Sys2Proof.Machine
end

