-- ==== Sys2Proof/Machine/Decoder.lean ====
section
/-! DEFINITION. The meanings of the stream elements FLAG, LIT and MATCH, and the start of DECODE (spec 42_decoder.md
R125 to R134). -/

namespace Sys2Proof.Machine

/-- FLAG v (R127). -/
def execFlag (v : Byte) (s : State) : Host.Outcome State Fault Refusal :=
  if Selects s .flagByte then .next { advanceIp 1 s with flagSr := v, slot := 0 }
  else .fault .elementNotSelected

/-- LIT b (R129). -/
def execLit (b : Byte) (s : State) : Host.Outcome State Fault Refusal :=
  if Selects s .literal then .next (writeByte b (advanceIp 1 s))
  else .fault .elementNotSelected

/-- MATCH len, off (R130): FormatError when exactly one byte remains, before anything is consumed (R134, R166), else the
copy. -/
def execMatchTok (len : Nat) (off : WinIx) (s : State) : Host.Outcome State Fault Refusal :=
  if Selects s .token then
    if s.inLen - s.ip < 2 then .next (raiseError .format s.ip s)
    else .next (copyBytes len (loadCopy len off (advanceIp 2 s)))
  else .fault .elementNotSelected

/-- The start of DECODE (R125, R126). -/
def beginDecode (s : State) : State := { setBusy (clearInstance s) with ip := 0 }

end Sys2Proof.Machine
end

