-- ==== Sys2Proof/Machine/Dictionary.lean ====
section
/-! DEFINITION. The encoder's dictionary: HASH, PUSH and LOOKUP (spec 40_dictionary.md R92 to R102). -/

namespace Sys2Proof

/-- The spec's default `HASH(b0, b1) = b0 | (b1 << 8)` (R95, decision D3). -/
def packPrefix (b0 b1 : Byte) : Hash := b0.setWidth 16 ||| (b1.setWidth 16 <<< 8)

/-- The exchange of the two hash values of `p`. -/
def swapHash (h : Hash) (p : Hash × Hash) : Hash := if h = p.1 then p.2 else if h = p.2 then p.1 else h

/-- `HASH(b0, b1)` of an instance with these parameters: the default, then the exchanges in order (R8, R95; log entry
9). -/
def Config.hash (c : Config) (b0 b1 : Byte) : Hash := c.hashSwaps.foldl swapHash (packPrefix b0 b1)

end Sys2Proof

namespace Sys2Proof.Machine

/-- PUSH, window part (R92). -/
def pushWindow (b : Byte) (s : State) : State :=
  { setWin s.cur b s with cur := s.cur + 1, cnt := s.cnt + 1 }

/-- The newest `n` entries of a sequence in insertion order, oldest of them first (R94, R97). -/
def newest {α : Type} (n : Nat) (l : List α) : List α := l.drop (l.length - n)

/-- PUSH, index part, with the advanced `cur` and `cnt`: the 2-byte prefix that starts two positions behind the cursor
enters its bucket, which keeps the 32 newest (R93, R94). -/
def pushIndex (s : State) : State :=
  let p := s.cur - 2
  let h := s.cfg.hash (winByte s p) (winByte s (p + 1))
  { s with
    idx := if 2 ≤ s.cnt then
        Table.put s.idx h.toNat (newest Config.bucketCap (bucket s h ++ [{ widx := p, abs := s.cnt - 2 }]))
      else s.idx }

/-- PUSH(b) (R92, R93). -/
def push (b : Byte) (s : State) : State := pushIndex (pushWindow b s)

/-- PUSH of each byte in turn. -/
def pushAll : List Byte → State → State
  | [], s => s
  | b :: rest, s => pushAll rest (push b s)

/-- `CMP(p, d, k)`, the byte a candidate at window index `p` and distance `d` offers at extension index `k` (R99): past
the cursor it is the byte the decoder's copy will read there. -/
def cmpByte (s : State) (p : WinIx) (d k : Nat) : Byte :=
  if k < d then winByte s (p + BitVec.ofNat 13 k) else inByte s (s.pos + k - d)

/-- The extension of a candidate from length `l`, at most `fuel` bytes further (R99). Under `stop` it ends at `d`. -/
def extend (s : State) (p : WinIx) (d : Nat) : Nat → Nat → Nat
  | 0, l => l
  | fuel + 1, l =>
    if s.cfg.cmpPolicy = .stop ∧ l = d then l
    else if cmpByte s p d l = inByte s (s.pos + l) then extend s p d fuel (l + 1)
    else l

/-- The scan of the candidates in order with the best extension so far: stale ones are skipped, only a strictly longer
extension replaces the best, and the scan ends at the longest possible length (R98, R100). -/
def scan (s : State) (maxlen : Nat) : List Candidate → Nat × WinIx → Nat × WinIx
  | [], best => best
  | c :: rest, best =>
    let d := s.cnt - c.abs
    if Config.windowSize < d then scan s maxlen rest best
    else
      let l := extend s c.widx d maxlen 0
      let best' := if best.1 < l then (l, c.widx) else best
      if best'.1 = maxlen then best' else scan s maxlen rest best'

/-- `maxlen` of LOOKUP (R96). -/
def lookupMax (s : State) : Nat := min Config.maxLen (s.inLen - s.pos)

/-- LOOKUP(IN, pos) (R96 to R101). It changes no state (R102). -/
def lookup (s : State) : Option (Nat × WinIx) :=
  if s.cnt < 2 ∨ s.inLen - s.pos < 2 then none
  else
    let b := bucket s (s.cfg.hash (inByte s s.pos) (inByte s (s.pos + 1)))
    let best := scan s (lookupMax s) (newest Config.scanDepth b) (0, 0)
    if Config.minLen ≤ best.1 then some best else none

end Sys2Proof.Machine
end

