-- ==== Sys2Proof/Machine/Encoder.lean ====
section
/-! DEFINITION. ENCODE and its slot steps (spec 41_encoder.md R110 to R118). -/

namespace Sys2Proof.Machine

/-- Block open (R113). -/
def openBlock (s : State) : State := { s with flagAcc := 0, slot := 0, stageLen := 0 }

/-- ENC.MATCH(len, off) (R115): stage the token, push the matched bytes from `IN`, advance `pos`. -/
def encMatch (len : Nat) (off : WinIx) (s : State) : State :=
  let t := stageByte (tokenHigh (tokenOf len off)) (stageByte (tokenLow (tokenOf len off)) s)
  let u := pushAll ((List.range len).map fun k => inByte s (s.pos + k)) t
  { u with pos := s.pos + len }

/-- ENC.LIT (R116): stage the byte, push it, advance `pos`, set the slot's flag bit. -/
def encLit (s : State) : State :=
  let u := push (inByte s s.pos) (stageByte (inByte s s.pos) s)
  { u with pos := s.pos + 1, flagAcc := withFlagBit s.flagAcc s.slot }

/-- One slot of a block: LOOKUP, then a match or a literal, then the next slot (R114). -/
def encSlot (s : State) : State :=
  match lookup s with
  | some (len, off) => nextSlot (encMatch len off s)
  | none => nextSlot (encLit s)

/-- ENC.CLOSE (R117): the flag byte, then the payloads in slot order. -/
def encClose (s : State) : State := { s with out := s.out ++ s.flagAcc :: staged s }

/-- One step of ENCODE (R110): a slot while the block has room and input remains; else the block is closed and the next
one opened, or the operation is done. -/
def encStep (s : State) : State :=
  if s.slot < Config.slots ∧ s.pos < s.inLen then encSlot s
  else if s.pos < s.inLen then openBlock (encClose s)
  else finish (encClose s)

/-- The start of ENCODE (R110 to R113): EmptyInputError before anything is changed, else CLEAR and the first block. -/
def beginEncode (s : State) : State :=
  if s.inLen = 0 then raiseError .emptyInput 0 s
  else openBlock { setBusy (clearInstance s) with pos := 0 }

end Sys2Proof.Machine
end

