-- ==== Sys2Proof/Machine/Commands.lean ====
section
/-! DEFINITION. The meanings of the host commands (spec 43_host_commands.md R145 to R150). CMD.ENCODE and CMD.DECODE are
accepted and started; the operation then goes on by its own steps (00_scope.md R12, decision D11; log entry 1). -/

namespace Sys2Proof.Machine

/-- A command that does something: a write to `CMD` while BUSY has no effect (R36, R150); else it is accepted (R145) and
`start` begins it. -/
def command (o : OpCode) (start : State → State) (s : State) : Host.Outcome State Fault Refusal :=
  if s.run = .busy then .next s else .next (start (accept o s))

/-- CMD.CLEAR (R146): it ends at once, in state IDLE. -/
def execCmdClear (s : State) : Host.Outcome State Fault Refusal :=
  command .clear (fun t => { clearInstance t with run := .idle }) s

/-- CMD.ENCODE (R147). -/
def execCmdEncode (s : State) : Host.Outcome State Fault Refusal := command .encode beginEncode s

/-- CMD.DECODE (R148). -/
def execCmdDecode (s : State) : Host.Outcome State Fault Refusal := command .decode beginDecode s

/-- A `CMD` value without an operation: it changes nothing (R149). -/
def noOperation (s : State) : Host.Outcome State Fault Refusal := .next s

/-- CMD.NONE_00 (R149). -/
def execCmdNone00 (s : State) : Host.Outcome State Fault Refusal := noOperation s

/-- CMD.NONE_04_07 (R149). -/
def execCmdNone0407 (_ : BitVec 2) (s : State) : Host.Outcome State Fault Refusal := noOperation s

/-- CMD.NONE_08_0F (R149). -/
def execCmdNone080F (_ : BitVec 3) (s : State) : Host.Outcome State Fault Refusal := noOperation s

/-- CMD.NONE_10_1F (R149). -/
def execCmdNone101F (_ : BitVec 4) (s : State) : Host.Outcome State Fault Refusal := noOperation s

/-- CMD.NONE_20_3F (R149). -/
def execCmdNone203F (_ : BitVec 5) (s : State) : Host.Outcome State Fault Refusal := noOperation s

/-- CMD.NONE_40_7F (R149). -/
def execCmdNone407F (_ : BitVec 6) (s : State) : Host.Outcome State Fault Refusal := noOperation s

/-- CMD.NONE_80_FF (R149). -/
def execCmdNone80FF (_ : BitVec 7) (s : State) : Host.Outcome State Fault Refusal := noOperation s

end Sys2Proof.Machine
end

