-- ==== Sys2Proof/Machine/Dispatch.lean ====
section
/-! DEFINITION. What each instruction does: one arm per constructor of Instr, each one call of its meaning. -/

namespace Sys2Proof.Machine

/-- The effect of one instruction. -/
def exec (i : Instr) (s : State) : Host.Outcome State Fault Refusal :=
  match i with
  | .flag v => Sys2Proof.Machine.execFlag v s
  | .lit b => Sys2Proof.Machine.execLit b s
  | .matchTok len off => Sys2Proof.Machine.execMatchTok len off s
  | .cmdClear => Sys2Proof.Machine.execCmdClear s
  | .cmdEncode => Sys2Proof.Machine.execCmdEncode s
  | .cmdDecode => Sys2Proof.Machine.execCmdDecode s
  | .cmdNone00 => Sys2Proof.Machine.execCmdNone00 s
  | .cmdNone0407 c => Sys2Proof.Machine.execCmdNone0407 c s
  | .cmdNone080F c => Sys2Proof.Machine.execCmdNone080F c s
  | .cmdNone101F c => Sys2Proof.Machine.execCmdNone101F c s
  | .cmdNone203F c => Sys2Proof.Machine.execCmdNone203F c s
  | .cmdNone407F c => Sys2Proof.Machine.execCmdNone407F c s
  | .cmdNone80FF c => Sys2Proof.Machine.execCmdNone80FF c s

end Sys2Proof.Machine
end

