-- ==== Sys2Proof/Machine/Fetch.lean ====
section
/-! DEFINITION. What the machine does next: the host's next access, or else the codec's own next step, with the
instruction it fetches (spec 42_decoder.md R125, R128; 43_host_commands.md R145, R150). -/

namespace Sys2Proof.Machine

/-- What a step does. -/
inductive Plan where
  /-- A transition that executes no instruction of the table. -/
  | move (t : State)
  /-- Instruction `i` is executed in state `t`. -/
  | run (i : Instr) (t : State)
  /-- The machine stops in a stuck state. -/
  | stuck (f : Fault)
  /-- The step is refused. -/
  | refuse (r : Refusal)
  deriving DecidableEq, Repr

/-- DECODE's next step (R125, R128): the test for remaining input comes before the flag bit (R197); then the element at
`ip`, or FormatError when a token is cut in half (R134). -/
def planDecode (s : State) : Plan :=
  if s.inLen ≤ s.ip then .move (finish s)
  else
    match decode (contextAt s) (operandBytes s) with
    | .ok i _ => .run i s
    | .truncatedToken => .move (raiseError .format s.ip s)
    | .noByte => .move (finish s)

/-- The codec's own next step: one step of the operation it is busy with, else it waits and keeps its state (R174). -/
def planCodec (s : State) : Plan :=
  match s.run with
  | .idle => .move s
  | .done => .move s
  | .fault => .move s
  | .busy =>
    match s.op with
    | .encode => .move (encStep s)
    | .decode => planDecode s
    | .noOp => .stuck .busyWithoutOperation
    | .clear => .stuck .busyWithoutOperation

/-- A host access to `IN` or `IN_LEN`: a breach of the host's duties while BUSY (R66, R150, R152). -/
def planInput (s t : State) : Plan := if s.run = .busy then .refuse .inputChangedWhileBusy else .move t

/-- Hardware reset (R45, R185) of an instance: its parameters stay, and so does what the host does after it. -/
def hardReset (s : State) : State := { State.reset with cfg := s.cfg, hostIn := s.hostIn }

/-- The host's access `e`, with the accesses after it already in `s` (R187). -/
def planHost (e : HostEvent) (s : State) : Plan :=
  match e with
  | .writeIn a b => planInput s (setIn a.toNat b s)
  | .writeInLen n => planInput s { s with inLen := n.toNat }
  | .writeCmd v =>
    match decode .command [v] with
    | .ok i _ => .run i s
    | .noByte => .move s
    | .truncatedToken => .move s
  | .pass => planCodec s
  | .await => if s.run = .busy then planCodec { s with hostIn := .await :: s.hostIn } else .move s
  | .hardReset => .move (hardReset s)

/-- What the machine does next: the host's oldest pending access, or the codec's own step when there is none. -/
def plan (s : State) : Plan :=
  match s.hostIn with
  | [] => planCodec s
  | e :: rest => planHost e { s with hostIn := rest }

/-- What the slot loop does after an instruction (R125, R128): `slot <- slot + 1` after LIT and MATCH, unless the
operation has stopped (R167). -/
def afterExec (i : Instr) (t : State) : State :=
  match i with
  | .lit _ => if t.run = .busy then nextSlot t else t
  | .matchTok _ _ => if t.run = .busy then nextSlot t else t
  | .flag _ => t
  | .cmdClear => t
  | .cmdEncode => t
  | .cmdDecode => t
  | .cmdNone00 => t
  | .cmdNone0407 _ => t
  | .cmdNone080F _ => t
  | .cmdNone101F _ => t
  | .cmdNone203F _ => t
  | .cmdNone407F _ => t
  | .cmdNone80FF _ => t

/-- `s` with a value for `CMD` as the host's next access, and no operation in the way of it (log entry 4). -/
def withCommand (v : Byte) (s : State) : State :=
  { s with hostIn := .writeCmd v :: s.hostIn, run := if s.run = .busy then .idle else s.run }

/-- `s` with the decoder at a match slot and the bytes of a token at `ip` (log entry 4). -/
def withToken (lo hi : Byte) (s : State) : State :=
  let ip := if s.ip = 0 then 1 else s.ip
  let slot := if s.slot < Config.slots then s.slot else 0
  { setIn (ip + 1) hi (setIn ip lo s) with
    hostIn := .pass :: s.hostIn, run := .busy, op := .decode, ip := ip, slot := slot, flagSr := 0,
    inLen := max s.inLen (ip + 2) }

/-- `s` with the bytes of a table word where the next step fetches them. -/
def placeBytes (bytes : List Byte) (s : State) : State :=
  match bytes with
  | [] => s
  | [v] => withCommand v s
  | lo :: hi :: _ => withToken lo hi s

end Sys2Proof.Machine
end

