-- ==== Sys2Proof/Machine/Step.lean ====
section
/-! DEFINITION. One step of the machine, and where a table word is placed so that the next step runs it. -/

namespace Sys2Proof.Machine

/-- One step: what `plan` says, an instruction being executed by `exec`. -/
def step (s : State) : Host.Outcome State Fault Refusal :=
  match plan s with
  | .move t => .next t
  | .stuck f => .fault f
  | .refuse r => .refused r
  | .run i t =>
    match exec i t with
    | .next u => .next (afterExec i u)
    | .fault f => .fault f
    | .refused r => .refused r

/-- `s` with a word of the opcode table stored where `step` fetches its next instruction (log entry 4). -/
def State.withFetchWord (s : State) (nbits w : Nat) : State := placeBytes (tableBytes nbits w) s

end Sys2Proof.Machine
end

