-- ==== Sys2Proof/Machine/HostBus.lean ====
section
/-! DEFINITION. What the host reads: the host registers by number (spec 10_state.md R36 to R40) and `OUT` (R42,
43_host_commands.md R151). Reads have no side effect (20_memory.md R60). -/

namespace Sys2Proof.Machine

/-- The host registers. -/
inductive HostReg where
  | cmd
  | status
  | inLen
  | outLen
  | errPos
  deriving DecidableEq, Repr

/-- The number that identifies a host register (R36 to R40). -/
def HostReg.number : HostReg → Nat
  | .cmd => 0
  | .status => 1
  | .inLen => 2
  | .outLen => 3
  | .errPos => 4

/-- What the host reads from a register: `CMD` is write-only and reads 0 (R36). DESIGN CHOICE (log entry 28): while BUSY,
where R38 grants no read of `IN_LEN` and R152 lets the host touch only `STATUS`, a read of `IN_LEN`, `OUT_LEN` or `ERR_POS`
gives the stored value, as in every other state. -/
def readRegister (s : State) : HostReg → Nat
  | .cmd => 0
  | .status => (statusByte s).toNat
  | .inLen => s.inLen
  | .outLen => s.outLen
  | .errPos => s.errPos

/-- What the host reads from `OUT[a]`: a result exists only in state DONE (R42, R151; log entry 15). -/
def readOut (s : State) (a : Nat) : Option Byte := if s.run = .done then s.out[a]? else none

end Sys2Proof.Machine
end

