-- ==== Sys2Proof/Machine/Reference.lean ====
section
/-! DEFINITION. The spec's closed forms, which the claims compare the machine with: DECODE as a function of bytes alone
(spec 10_state.md R36, 42_decoder.md R125 to R139), and LOOKUP as a function of the input and the position alone
(40_dictionary.md R103). No step uses them. -/

namespace Sys2Proof.Machine

/-- The newest byte of `out` whose position is `i` modulo `W`, or `fill` where there is none (R61, R137). -/
def historyByte (fill : Byte) (out : List Byte) (i : WinIx) : Byte :=
  if i.toNat < out.length then
    out.getD (i.toNat + Config.windowSize * ((out.length - 1 - i.toNat) / Config.windowSize)) fill
  else fill

/-- `out` with `n` more bytes, each read from the history at `off`, `off + 1` and so on, earlier ones of the same copy
included (R63). -/
def copyHistory (fill : Byte) : Nat → WinIx → List Byte → List Byte
  | 0, _, out => out
  | n + 1, off, out => copyHistory fill n (off + 1) (out ++ [historyByte fill out off])

/-- The two ways a stream ends (R139), with the bytes decoded so far. -/
inductive StreamResult where
  | done (out : List Byte)
  | formatError (out : List Byte)
  deriving DecidableEq, Repr

/-- The slot after slot `i` of a block with flag byte `f`; `none` says that the next byte is a flag byte (R128). -/
def slotAfter (f : Byte) (i : Nat) : Option (Byte × Nat) :=
  if i + 1 < Config.slots then some (f, i + 1) else none

/-- What the stream `bytes` decodes to, from a slot of a block or from the start of one, with `out` decoded before
(R125, R128 to R136). -/
def decodeFrom (fill : Byte) : List Byte → Option (Byte × Nat) → List Byte → StreamResult
  | [], _, out => .done out
  | f :: rest, none, out => decodeFrom fill rest (some (f, 0)) out
  | [b], some (f, i), out => if f.getLsbD i then .done (out ++ [b]) else .formatError out
  | b :: hi :: rest, some (f, i), out =>
    if f.getLsbD i then decodeFrom fill (hi :: rest) (slotAfter f i) (out ++ [b])
    else
      decodeFrom fill rest (slotAfter f i)
        (copyHistory fill ((hi >>> 5).toNat + 3) (hi.setWidth 5 ++ b) out)

/-- What the stream `bytes` decodes to. -/
def decodeStream (fill : Byte) (bytes : List Byte) : StreamResult := decodeFrom fill bytes none []

/-- `maxlen` of a lookup at `pos` in an input of `n` bytes (R96). -/
def refMax (n pos : Nat) : Nat := min Config.maxLen (n - pos)

/-- `L(a)` of R103: how far the input at `a` agrees with the input at `pos`, cut at `pos - a` under `stop`. -/
def refLen (policy : CmpPolicy) (f : Nat → Byte) (n pos a : Nat) : Nat :=
  let l := ((List.range (refMax n pos)).takeWhile fun k => f (a + k) == f (pos + k)).length
  match policy with
  | .overlap => l
  | .stop => min l (pos - a)

/-- The positions `A` of R103, in rising order: where the 2-byte prefix at `pos` occurred before. -/
def refPositions (f : Nat → Byte) (pos : Nat) : List Nat :=
  (List.range (pos - 1)).filter fun a => f a == f pos && f (a + 1) == f (pos + 1)

/-- The positions a lookup may use: the 16 largest of `A`, those not farther back than `W` (R103). -/
def refUsable (f : Nat → Byte) (pos : Nat) : List Nat :=
  (newest Config.scanDepth (refPositions f pos)).filter fun a => decide (pos - a ≤ Config.windowSize)

/-- `r` is the result R103 gives a lookup at `pos` in the input `f` of `n` bytes: the smallest usable position with the
greatest `L`, if that is at least 3; else none. -/
def IsLookupResult (policy : CmpPolicy) (f : Nat → Byte) (n pos : Nat) : Option (Nat × WinIx) → Prop
  | some (len, off) =>
    2 ≤ pos ∧ 2 ≤ n - pos ∧ Config.minLen ≤ len ∧
      ∃ a ∈ refUsable f pos, refLen policy f n pos a = len ∧ off = BitVec.ofNat 13 a ∧
        ∀ a' ∈ refUsable f pos, refLen policy f n pos a' ≤ len ∧ (refLen policy f n pos a' = len → a ≤ a')
  | none =>
    pos < 2 ∨ n - pos < 2 ∨ ∀ a ∈ refUsable f pos, refLen policy f n pos a < Config.minLen

/-- The 32 newest of the positions before `pos - 1` whose 2-byte prefix `keep` accepts, as candidates, oldest first
(R93, R94). -/
def refCandidates (f : Nat → Byte) (pos : Nat) (keep : Byte → Byte → Bool) : List Candidate :=
  newest Config.bucketCap
    (((List.range (pos - 1)).filter fun a => keep (f a) (f (a + 1))).map fun a =>
      { widx := BitVec.ofNat 13 a, abs := a })

/-- The bucket of hash value `h` after the input bytes before `pos` were pushed: the newest positions whose prefix hashes
to `h` (R93, R94). -/
def refBucket (c : Config) (f : Nat → Byte) (pos : Nat) (h : Hash) : List Candidate :=
  refCandidates f pos fun b0 b1 => c.hash b0 b1 == h

/-- The candidates of one prefix value after the input bytes before `pos` were pushed (R95, R105). -/
def prefixBucket (f : Nat → Byte) (pos : Nat) (b0 b1 : Byte) : List Candidate :=
  refCandidates f pos fun c0 c1 => c0 == b0 && c1 == b1

end Sys2Proof.Machine
end

