-- ==== Sys2Proof/Machine/Listing.lean ====
section
/-! DEFINITION. Stream listings and their pseudo-instructions (spec 30_encoding.md R85, R86), the grammar of the streams
that decode without error (R84), and ENCODE as a greedy parse of the input alone (40_dictionary.md R103, 41_encoder.md
R114). No step uses them. -/

namespace Sys2Proof.Machine

/-- A line of a listing (R85): an element, or `.byte b`. -/
inductive Line where
  | element (i : Instr)
  | byte (b : Byte)
  deriving DecidableEq, Repr

/-- What a line emits (R85). -/
def Line.bytes : Line → List Byte
  | .element i => encode i
  | .byte b => [b]

/-- What a listing emits. -/
def listingBytes (l : List Line) : List Byte := l.flatMap Line.bytes

/-- A literal or a well-formed match: what a block can hold (R86). -/
def IsElement : Instr → Prop
  | .lit _ => True
  | .matchTok len off => (Instr.matchTok len off).WellFormed
  | .flag _ => False
  | .cmdClear => False
  | .cmdEncode => False
  | .cmdDecode => False
  | .cmdNone00 => False
  | .cmdNone0407 _ => False
  | .cmdNone080F _ => False
  | .cmdNone101F _ => False
  | .cmdNone203F _ => False
  | .cmdNone407F _ => False
  | .cmdNone80FF _ => False

/-- The next slot of a block is there and its flag bit asks for a literal, or for a match (R85). Before the first FLAG there is no
slot (log entry 29). -/
def slotTakes (literal : Bool) : Option (Byte × Nat) → Bool
  | none => false
  | some (v, i) => decide (i < Config.slots) && v.getLsbD i == literal

/-- A listing is well-formed after a flag byte's slot, or at its start (R85): each element of a block agrees with its bit
of the flag byte, and a block has at most 8. DESIGN CHOICE (log entry 29): R85 constrains only the elements after a FLAG,
and a listing with another line before its first FLAG is not well-formed here. -/
def listingWellFormed : Option (Byte × Nat) → List Line → Bool
  | _, [] => true
  | _, .byte _ :: _ => false
  | slot, .element e :: rest =>
    match e with
    | .flag v => listingWellFormed (some (v, 0)) rest
    | .lit _ => slotTakes true slot && listingWellFormed (slot.map fun p => (p.1, p.2 + 1)) rest
    | .matchTok len off =>
      slotTakes false slot && decide (Instr.matchTok len off).WellFormed &&
        listingWellFormed (slot.map fun p => (p.1, p.2 + 1)) rest
    | .cmdClear => false
    | .cmdEncode => false
    | .cmdDecode => false
    | .cmdNone00 => false
    | .cmdNone0407 _ => false
    | .cmdNone080F _ => false
    | .cmdNone101F _ => false
    | .cmdNone203F _ => false
    | .cmdNone407F _ => false
    | .cmdNone80FF _ => false

/-- The flag byte of `BLOCK ... END` (R86(a)): bit `i` is set exactly when element `i` is a LIT. -/
def blockFlag : List Instr → Nat → Byte
  | [], _ => 0
  | e :: rest, i => (if e.context = .literal then 1#8 <<< i else 0) ||| blockFlag rest (i + 1)

/-- `BLOCK ... END` (R86(a)). -/
def expandBlock (els : List Instr) : List Line := .element (.flag (blockFlag els 0)) :: els.map .element

/-- `REP n { ... }` (R86(b)). -/
def expandRep (n : Nat) (els : List Instr) : List Instr := (List.replicate n els).flatten

/-- `SLOTS` with the elements `acc` of the block begun before (R86(c)). -/
def expandSlotsFrom : List Instr → List Instr → List Line
  | acc, [] => if acc.isEmpty then [] else expandBlock acc
  | acc, e :: rest =>
    if acc.length + 1 = Config.slots then expandBlock (acc ++ [e]) ++ expandSlotsFrom [] rest
    else expandSlotsFrom (acc ++ [e]) rest

/-- `SLOTS e0 e1 ...` (R86(c)): blocks of 8, the last possibly shorter. -/
def expandSlots (els : List Instr) : List Line := expandSlotsFrom [] els

/-- What one element adds to the bytes decoded so far (R129, R130); what is no element adds nothing. -/
def applyElement (fill : Byte) (out : List Byte) : Instr → List Byte
  | .lit b => out ++ [b]
  | .matchTok len off => copyHistory fill len off out
  | .flag _ => out
  | .cmdClear => out
  | .cmdEncode => out
  | .cmdDecode => out
  | .cmdNone00 => out
  | .cmdNone0407 _ => out
  | .cmdNone080F _ => out
  | .cmdNone101F _ => out
  | .cmdNone203F _ => out
  | .cmdNone407F _ => out
  | .cmdNone80FF _ => out

/-- `bytes` are the payloads of the slots `i` to `k - 1` of a block with flag byte `f` (R84). -/
inductive InSlots (f : Byte) : Nat → Nat → List Byte → Prop where
  | nil (i : Nat) : InSlots f i i []
  | lit (i k : Nat) (b : Byte) (rest : List Byte) :
      f.getLsbD i = true → InSlots f (i + 1) k rest → InSlots f i k (b :: rest)
  | matchTok (i k : Nat) (lo hi : Byte) (rest : List Byte) :
      f.getLsbD i = false → InSlots f (i + 1) k rest → InSlots f i k (lo :: hi :: rest)

/-- The grammar of R84: full blocks, then perhaps a last block of fewer than 8 slots. -/
inductive InGrammar : List Byte → Prop where
  | empty : InGrammar []
  | last (f : Byte) (k : Nat) (payload : List Byte) : k ≤ 7 → InSlots f 0 k payload → InGrammar (f :: payload)
  | full (f : Byte) (payload rest : List Byte) :
      InSlots f 0 8 payload → InGrammar rest → InGrammar (f :: payload ++ rest)

/-- R103's lookup as a function of the input `f` of `n` bytes and the position. -/
def refLookup (policy : CmpPolicy) (f : Nat → Byte) (n pos : Nat) : Option (Nat × WinIx) :=
  let best := (refUsable f pos).foldl
    (fun best a => if best.1 < refLen policy f n pos a then (refLen policy f n pos a, a) else best) ((0, 0) : Nat × Nat)
  if 2 ≤ pos ∧ 2 ≤ n - pos ∧ Config.minLen ≤ best.1 then some (best.1, BitVec.ofNat 13 best.2) else none

/-- The greedy parse of the input from `pos` on, at most `fuel` elements (R114): the lookup's match, else a literal. -/
def refParse (policy : CmpPolicy) (f : Nat → Byte) (n : Nat) : Nat → Nat → List Instr
  | 0, _ => []
  | fuel + 1, pos =>
    if n ≤ pos then []
    else
      match refLookup policy f n pos with
      | some (len, off) => .matchTok len off :: refParse policy f n fuel (pos + len)
      | none => .lit (f pos) :: refParse policy f n fuel (pos + 1)

/-- ENCODE as a function of the input alone: the blocks of its greedy parse. -/
def encodeInput (policy : CmpPolicy) (f : Nat → Byte) (n : Nat) : List Byte :=
  listingBytes (expandSlots (refParse policy f n n 0))

end Sys2Proof.Machine
end

