-- ==== Sys2Proof/Safety.lean ====
section
/-! DEFINITION. What the claims mean by a finished run, by a sound state, and by a dictionary or a window that holds what
the spec says it holds. -/

namespace Sys2Proof.Machine

/-- A run of ENCODE or DECODE is over (R153). FAULT is never a successful end. -/
abbrev State.Finished (s : State) : Prop := s.run = .done ∨ s.run = .fault

/-- A run from `s` that takes at least one step is over at `t`, after at most `k` steps. -/
abbrev State.EndsWithin (s t : State) (k : Nat) : Prop :=
  ∃ j, j + 1 ≤ k ∧ Host.Core.run Sys2Proof.core (j + 1) s = .next t ∧ t.Finished

/-- A run from `s` that takes at least one step is over at `t`. -/
abbrev State.EndsAt (s t : State) : Prop := ∃ k, s.EndsWithin t k

/-- The instance is not BUSY and the host's one pending access is a write of `v` to `CMD`. -/
abbrev State.Commanded (s : State) (v : Byte) : Prop := s.run ≠ .busy ∧ s.hostIn = [.writeCmd v]

/-- An operation of kind `o` runs and the host leaves the codec alone. -/
abbrev State.Running (s : State) (o : OpCode) : Prop := s.run = .busy ∧ s.op = o ∧ s.hostIn = []

/-- The host's next access ends a resting state: a command that is accepted, or hardware reset. -/
abbrev State.Restarts (s : State) : Prop :=
  (∃ v rest, s.hostIn = .writeCmd v :: rest ∧ (v = 1 ∨ v = 2 ∨ v = 3)) ∨ ∃ rest, s.hostIn = .hardReset :: rest

/-- The invariants of the state, kept by every step: the canonical forms of the memories, the bounds of the registers
and of the buckets (R22, R24 to R26, R28, R30 to R32, R35), and the fields of `STATUS` (R37, R40, R145). -/
structure State.Inv (s : State) : Prop where
  /-- `WIN` is in canonical form. -/
  winWf : Memory.wf (some s.cfg.winFill) s.win
  /-- `WIN` lists indices 0 to 8191 only (R21). -/
  winRange : ∀ e ∈ s.win, e.1 < Config.windowSize
  /-- `IN` is in canonical form. -/
  inWf : Memory.wf none s.inBuf
  /-- `IDX` is in canonical form: hashes rise. -/
  idxSorted : Table.Sorted s.idx
  /-- A listed bucket has a 16-bit hash and 1 to 32 candidates (R24, R26). -/
  idxBuckets : ∀ e ∈ s.idx, e.1 < 2 ^ 16 ∧ e.2 ≠ [] ∧ e.2.length ≤ Config.bucketCap
  /-- `widx = abs mod W` and `abs <= cnt - 2` (R25). -/
  candidates : ∀ e ∈ s.idx, ∀ c ∈ e.2, c.widx = BitVec.ofNat 13 c.abs ∧ c.abs + 2 ≤ s.cnt
  /-- Within a bucket `abs` increases strictly from oldest to newest (R26). -/
  bucketsRise : ∀ e ∈ s.idx, e.2.Pairwise fun x y => x.abs < y.abs
  /-- `slot` is in [0, 8] (R30). -/
  slotBound : s.slot ≤ Config.slots
  /-- `stage_len` is in [0, 16] (R31). -/
  stageBound : s.stageLen ≤ 16
  /-- While ENCODE runs a filled slot has staged at most two bytes (R31). -/
  stageSlots : s.run = .busy → s.op = .encode → s.stageLen ≤ 2 * s.slot
  /-- `IN_LEN` is `CNT_BITS` bits wide (R38). -/
  inLenBound : s.inLen < 2 ^ Config.cntBits
  /-- `rem = 0` between stream elements (R35). -/
  remZero : s.rem = 0
  /-- `ip <= IN_LEN` while DECODE runs (R32). -/
  ipBound : s.run = .busy → s.op = .decode → s.ip ≤ s.inLen
  /-- `pos <= IN_LEN` and `pos = cnt` while ENCODE runs (R28). -/
  posBound : s.run = .busy → s.op = .encode → s.pos ≤ s.inLen ∧ s.pos = s.cnt
  /-- `err != 0` exactly when `state = FAULT` (R37). -/
  errFault : s.err ≠ .noError ↔ s.run = .fault
  /-- `ERR_POS` is 0 but for a FormatError (R40). -/
  errPosZero : s.err ≠ .format → s.errPos = 0
  /-- A running or finished operation is ENCODE or DECODE (R145). -/
  opRunning : s.run ≠ .idle → s.op = .encode ∨ s.op = .decode
  /-- IDLE means that nothing ran since reset or CLEAR (R37). -/
  opIdle : s.run = .idle → s.op = .noOp ∨ s.op = .clear
  /-- `cur` counts the bytes stored since the last CLEAR modulo `W` (R22): in ENCODE those pushed. -/
  curEncode : s.op = .encode → s.run ≠ .fault → s.cur = BitVec.ofNat 13 s.cnt
  /-- In DECODE `cur` counts the bytes decoded (R22, R133). -/
  curDecode : s.op = .decode → s.cur = BitVec.ofNat 13 s.outLen
  /-- The decoder does not use `cnt` and `IDX`, which are as CLEAR left them (R23, R47). -/
  decodeUnindexed : s.op = .decode → s.cnt = 0 ∧ s.idx = []

/-- The dictionary holds exactly `IN[0 .. pos-1]` (R119): the counters, the bytes of the window (R61, R92) and the
buckets (R93, R94). -/
structure State.DictionaryHolds (s : State) : Prop where
  /-- `pos = cnt`. -/
  posCnt : s.pos = s.cnt
  /-- `cur = pos mod W`. -/
  curPos : s.cur = BitVec.ofNat 13 s.pos
  /-- Byte `q` of the last `W` pushed is at `WIN[q mod W]`. -/
  window : ∀ q, q < s.pos → s.pos ≤ q + Config.windowSize → winByte s (BitVec.ofNat 13 q) = inByte s q
  /-- Each bucket holds the newest positions of its prefixes. -/
  buckets : ∀ h, bucket s h = refBucket s.cfg (inByte s) s.pos h

/-- The decoder's window holds the bytes of `OUT` (R61, R133), and `WIN_FILL` where nothing was stored (R137). -/
structure State.WindowHolds (s : State) : Prop where
  /-- `cur = OUT_LEN mod W`. -/
  curOut : s.cur = BitVec.ofNat 13 s.outLen
  /-- Every cell holds the newest output byte whose position is the cell's index modulo `W`. -/
  window : ∀ i, winByte s i = historyByte s.cfg.winFill s.out i

end Sys2Proof.Machine
end

