-- ==== Sys2Proof/Certificates/Slice0/Obligations.lean ====
section
/-! DEFINITION. The statements for the provers. Each docstring names the rules of the spec it formalises. -/

open Sys2Proof Sys2Proof.Machine

/-- R72 to R77, R88: decoding the words of a well-formed instruction, in its context and with any bytes after them, gives
the instruction and those bytes. -/
def Obligations.DecodeOfEncodeIsIdentity : Prop :=
  ∀ (i : Instr) (rest : List Byte), i.WellFormed → decode i.context (encode i ++ rest) = .ok i rest

/-- R76, R80, R88: what the decoder reads is well-formed, stands in the context asked for, and its words are the bytes
read. -/
def Obligations.EncodeOfDecodeIsIdentity : Prop :=
  ∀ (c : Context) (bytes rest : List Byte) (i : Instr), decode c bytes = .ok i rest →
    i.WellFormed ∧ i.context = c ∧ bytes = encode i ++ rest

/-- R80, R81: the decoder rejects nothing but the absence of a byte and a token's lone first byte. -/
def Obligations.OnlyMissingBytesAreRejected : Prop :=
  ∀ (c : Context) (bytes : List Byte),
    (decode c bytes = .noByte ↔ bytes = []) ∧
      (decode c bytes = .truncatedToken ↔ c = .token ∧ bytes.length = 1)

/-- R72 to R74, R88: words written out bit by bit from the spec's encodings, one or more of each family. -/
def Obligations.SampleWordsDecode : Prop :=
  decode .flagByte [0b00001111] = .ok (.flag 0x0F) [] ∧
    decode .literal [0b01000001] = .ok (.lit 0x41) [] ∧
    decode .token [0b00110100, 0b10010010] = .ok (.matchTok 7 0x1234) [] ∧
    decode .token [0b00000100, 0b00100000] = .ok (.matchTok 4 4) [] ∧
    decode .command [0b00000001] = .ok .cmdClear [] ∧
    decode .command [0b00000010] = .ok .cmdEncode [] ∧
    decode .command [0b00000011] = .ok .cmdDecode [] ∧
    decode .command [0b00000110] = .ok (.cmdNone0407 2) [] ∧
    decode .command [0b10000001] = .ok (.cmdNone80FF 1) []

/-- R88: for every value of `CMD` exactly one CMD8 row has `v AND mask = match`, and it is the row of the instruction that
the decoder reads. -/
def Obligations.CommandRowsPartition : Prop :=
  ∀ v : Byte, ((commandRows.filter fun r => v &&& r.2 == r.1).map some) = [commandRow (decodeCommand v)]

/-- R55, R76, R77: the token's fields as numbers, both ways, and its two bytes, low byte first. -/
def Obligations.TokenFieldFormulas : Prop :=
  (∀ lo hi : Byte,
    tokenLen (tokenOfBytes lo hi) = (lo.toNat + 256 * hi.toNat) / 8192 + 3 ∧
      (tokenOff (tokenOfBytes lo hi)).toNat = (lo.toNat + 256 * hi.toNat) % 8192) ∧
    ∀ (len : Nat) (off : WinIx), 3 ≤ len → len ≤ 10 →
      (tokenOf len off).toNat = (len - 3) * 8192 + off.toNat ∧
        (tokenLow (tokenOf len off)).toNat = ((len - 3) * 8192 + off.toNat) % 256 ∧
        (tokenHigh (tokenOf len off)).toNat = ((len - 3) * 8192 + off.toNat) / 256

/-- R95: HASH is injective on pairs of bytes, whatever the parameter. That the parameter is a list of exchanges is the
model's form of it (log entry 9). -/
def Obligations.HashIsInjective : Prop :=
  ∀ (c : Config) (b0 b1 c0 c1 : Byte), c.hash b0 b1 = c.hash c0 c1 → b0 = c0 ∧ b1 = c1

/-- R8, R95: the default HASH as a number, and every injective HASH is that of some parameter (log entry 9), whatever the
other parameters are. -/
def Obligations.EveryInjectiveHashIsAParameter : Prop :=
  (∀ b0 b1 : Byte, (Config.std.hash b0 b1).toNat = b0.toNat + 256 * b1.toNat) ∧
    ∀ f : Byte → Byte → Hash, (∀ b0 b1 c0 c1, f b0 b1 = f c0 c1 → b0 = c0 ∧ b1 = c1) →
      ∃ swaps : List (Hash × Hash), ∀ (c : Config) (b0 b1 : Byte), { c with hashSwaps := swaps }.hash b0 b1 = f b0 b1

/-- R44: no step changes the instance's parameters. That they stand in the state is the model's choice (log entry 8). -/
def Obligations.ParametersNeverChange : Prop :=
  ∀ s t : State, step s = .next t → t.cfg = s.cfg

/-- R36, R150: a write to `CMD` while BUSY has no effect, whatever the value. -/
def Obligations.CommandWhileBusyHasNoEffect : Prop :=
  ∀ (s : State), s.run = .busy →
    (∀ i : Instr, i.context = .command → exec i s = .next s) ∧
      ∀ (v : Byte) (rest : List HostEvent), s.hostIn = .writeCmd v :: rest →
        step s = .next { s with hostIn := rest }

/-- R149: a write of 0 or of 4 to 255 to `CMD` changes nothing. -/
def Obligations.OtherCommandCodesChangeNothing : Prop :=
  ∀ s : State,
    exec .cmdNone00 s = .next s ∧ (∀ c, exec (.cmdNone0407 c) s = .next s) ∧
      (∀ c, exec (.cmdNone080F c) s = .next s) ∧ (∀ c, exec (.cmdNone101F c) s = .next s) ∧
      (∀ c, exec (.cmdNone203F c) s = .next s) ∧ (∀ c, exec (.cmdNone407F c) s = .next s) ∧
      (∀ c, exec (.cmdNone80FF c) s = .next s) ∧
      ∀ v : Byte, v = 0 ∨ 4 ≤ v.toNat → ∃ i, decode .command [v] = .ok i [] ∧ exec i s = .next s

/-- R146, R91, R45: CMD.CLEAR empties the dictionary and sets the registers of the column "after CLEAR"; `stage`, `src`,
`IN` and `IN_LEN` stay. -/
def Obligations.ClearCommandClearsTheInstance : Prop :=
  ∀ s : State, s.run ≠ .busy →
    ∃ t, exec .cmdClear s = .next t ∧
      (∀ i, winByte t i = s.cfg.winFill) ∧ (∀ h, bucket t h = []) ∧
      t = { s with
        win := [], cur := 0, cnt := 0, idx := [], pos := 0, flagAcc := 0, slot := 0, stageLen := 0, ip := 0,
        flagSr := 0, rem := 0, out := [], run := .idle, err := .noError, op := .clear, errPos := 0 }

/-- R145, R147, R112, R113: CMD.ENCODE with input is accepted, clears the instance, is BUSY and has opened its first
block; the operation goes on by its own steps (log entry 1). That the accepting step also opens the block is the model's
choice (log entry 17). -/
def Obligations.EncodeCommandStarts : Prop :=
  ∀ s : State, s.run ≠ .busy → 0 < s.inLen →
    ∃ t, exec .cmdEncode s = .next t ∧ statusByte t = 0x21 ∧
      (∀ i, winByte t i = s.cfg.winFill) ∧ (∀ h, bucket t h = []) ∧
      t = { s with
        win := [], cur := 0, cnt := 0, idx := [], pos := 0, flagAcc := 0, slot := 0, stageLen := 0, ip := 0,
        flagSr := 0, rem := 0, out := [], run := .busy, err := .noError, op := .encode, errPos := 0 }

/-- R111: CMD.ENCODE of an empty input faults at once, with `OUT` empty, before CLEAR. -/
def Obligations.EncodeOfEmptyInputFaults : Prop :=
  ∀ s : State, s.run ≠ .busy → s.inLen = 0 →
    ∃ t, exec .cmdEncode s = .next t ∧ statusByte t = 0x27 ∧ t.outLen = 0 ∧
      t = { s with run := .fault, err := .emptyInput, op := .encode, errPos := 0, out := [] }

/-- R145, R148, R126: CMD.DECODE is accepted, clears the instance and is BUSY at the start of the stream; the operation
goes on by its own steps (log entry 1). -/
def Obligations.DecodeCommandStarts : Prop :=
  ∀ s : State, s.run ≠ .busy →
    ∃ t, exec .cmdDecode s = .next t ∧ statusByte t = 0x31 ∧ (∀ i, winByte t i = s.cfg.winFill) ∧
      t = { s with
        win := [], cur := 0, cnt := 0, idx := [], pos := 0, flagAcc := 0, slot := 0, stageLen := 0, ip := 0,
        flagSr := 0, rem := 0, out := [], run := .busy, err := .noError, op := .decode, errPos := 0 }

/-- R168: FAULT, `STATUS.err` and `ERR_POS` keep their values until the next accepted command, or hardware reset. -/
def Obligations.FaultIsSticky : Prop :=
  ∀ s t : State, s.run = .fault → step s = .next t →
    (t.run = .fault ∧ t.err = s.err ∧ t.errPos = s.errPos ∧ t.op = s.op) ∨ s.Restarts

/-- R151: in state DONE the result stays unchanged until the next accepted command, or hardware reset. -/
def Obligations.ResultStaysUntilNextCommand : Prop :=
  ∀ s t : State, s.run = .done → step s = .next t →
    (t.run = .done ∧ t.out = s.out ∧ ∀ a, readOut t a = readOut s a) ∨ s.Restarts

/-- R174: an instance that is not BUSY waits for a command and keeps all its state, while the host does nothing or reads
`STATUS` (R187). -/
def Obligations.IdleInstanceKeepsItsState : Prop :=
  ∀ s : State, s.run ≠ .busy →
    (s.hostIn = [] → step s = .next s) ∧
      ∀ rest, s.hostIn = .pass :: rest ∨ s.hostIn = .await :: rest → step s = .next { s with hostIn := rest }

/-- R38, R41, R187: the host's writes to `IN` and `IN_LEN` while the codec is not BUSY, and their frame. -/
def Obligations.HostWritesItsInput : Prop :=
  ∀ (s : State) (rest : List HostEvent), s.run ≠ .busy →
    (∀ (a : BitVec 64) (b : Byte), s.hostIn = .writeIn a b :: rest →
      ∃ t, step s = .next t ∧ inByte t a.toNat = b ∧ (∀ k, k ≠ a.toNat → inByte t k = inByte s k) ∧
        t = { s with inBuf := t.inBuf, hostIn := rest }) ∧
      ∀ n : BitVec 64, s.hostIn = .writeInLen n :: rest →
        step s = .next { s with inLen := n.toNat, hostIn := rest }

/-- R66, R152, U6: a host write to `IN` or `IN_LEN` while BUSY is refused. That it is a refusal is the model's choice
(log entry 14). -/
def Obligations.InputChangeWhileBusyIsRefused : Prop :=
  ∀ (s : State) (e : HostEvent) (rest : List HostEvent), s.run = .busy → s.hostIn = e :: rest →
    ((∃ a b, e = .writeIn a b) ∨ ∃ n, e = .writeInLen n) → step s = .refused .inputChangedWhileBusy

/-- R36, R37, R39, R40: what the host reads from the registers; bits [7:6] of `STATUS` read 0. That a read of `IN_LEN`,
`OUT_LEN` or `ERR_POS` gives the stored value while BUSY too is the model's choice (log entry 28). -/
def Obligations.HostRegistersRead : Prop :=
  ∀ s : State,
    readRegister s .cmd = 0 ∧
      readRegister s .status = s.run.code.toNat + 4 * s.err.code.toNat + 16 * s.op.code.toNat ∧
      (statusByte s).extractLsb' 6 2 = 0 ∧ readRegister s .inLen = s.inLen ∧
      readRegister s .outLen = s.out.length ∧ readRegister s .errPos = s.errPos

/-- R45, R185: hardware reset from any state, BUSY or not. The zeros of `stage` and `src` are the model's choice (log
entries 6 and 7); that a reset can come at any step is too (log entry 19). -/
def Obligations.HardwareResetValues : Prop :=
  ∀ (s : State) (rest : List HostEvent), s.hostIn = .hardReset :: rest →
    ∃ t, step s = .next t ∧ t.cfg = s.cfg ∧ t.hostIn = rest ∧
      (∀ i, winByte t i = s.cfg.winFill) ∧ (∀ h, bucket t h = []) ∧ statusByte t = 0x00 ∧
      t.cur = 0 ∧ t.cnt = 0 ∧ t.pos = 0 ∧ t.ip = 0 ∧ t.flagAcc = 0 ∧ t.flagSr = 0 ∧ t.slot = 0 ∧
      t.stageLen = 0 ∧ t.rem = 0 ∧ t.inLen = 0 ∧ t.outLen = 0 ∧ t.errPos = 0 ∧ t.out = [] ∧
      t.stage = Vector.replicate 16 0 ∧ t.src = 0

/-- R127: FLAG v sets `flag_sr` to v, advances `ip` by 1, sets `slot` to 0, and changes nothing else; the step that runs it
takes v from `IN[ip]`. -/
def Obligations.FlagResultAndFrame : Prop :=
  ∀ s : State, Selects s .flagByte →
    (∀ v : Byte, exec (.flag v) s = .next { s with flagSr := v, ip := s.ip + 1, slot := 0 }) ∧
      (s.hostIn = [] → step s = .next { s with flagSr := inByte s s.ip, ip := s.ip + 1, slot := 0 })

/-- R129, R131: LIT b stores `b` at the cursor, appends it to `OUT`, advances `ip` and `cur` by 1, and changes nothing
else; every other window byte reads as before. -/
def Obligations.LitResultAndFrame : Prop :=
  ∀ (b : Byte) (s : State), Selects s .literal →
    ∃ t, exec (.lit b) s = .next t ∧
      (∀ j, winByte t j = if j = s.cur then b else winByte s j) ∧ (∀ a, inByte t a = inByte s a) ∧
      t = { s with win := t.win, ip := s.ip + 1, cur := s.cur + 1, out := s.out ++ [b] }

/-- R130: MATCH len, off with its two bytes present appends `len` bytes, stores each at the cursor in turn, advances `ip`
by 2, and changes nothing else; every window byte outside the `len` cells from the cursor on reads as before. -/
def Obligations.MatchResultAndFrame : Prop :=
  ∀ (len : Nat) (off : WinIx) (s : State), (Instr.matchTok len off).WellFormed → Selects s .token →
    2 ≤ s.inLen - s.ip →
    ∃ (t : State) (l : List Byte), exec (.matchTok len off) s = .next t ∧ l.length = len ∧
      (∀ k, k < len → winByte t (s.cur + BitVec.ofNat 13 k) = l.getD k 0) ∧
      (∀ j, (∀ k, k < len → j ≠ s.cur + BitVec.ofNat 13 k) → winByte t j = winByte s j) ∧
      (∀ a, inByte t a = inByte s a) ∧
      t = { s with
        win := t.win, ip := s.ip + 2, cur := s.cur + BitVec.ofNat 13 len, src := off + BitVec.ofNat 13 len, rem := 0,
        out := s.out ++ l }

/-- R63, R189: the bytes of a copy. With distance `d = (cur - offset) mod W` in [1, len - 1] they are the `d` bytes from
`off` on repeated; else the window bytes from `off` on as they were before the copy. -/
def Obligations.MatchRepeatsOverlap : Prop :=
  ∀ (len : Nat) (off : WinIx) (s : State), (Instr.matchTok len off).WellFormed → Selects s .token →
    2 ≤ s.inLen - s.ip →
    ∃ t, exec (.matchTok len off) s = .next t ∧
      t.out = s.out ++ (List.range len).map fun k =>
        winByte s (off + BitVec.ofNat 13
          (if 1 ≤ (s.cur - off).toNat ∧ (s.cur - off).toNat < len then k % (s.cur - off).toNat else k))

/-- R134, R166: MATCH with exactly one byte left raises FormatError: `ERR_POS` is `ip`, the state is FAULT, and nothing
else changes. -/
def Obligations.MatchWithOneByteLeftFaults : Prop :=
  ∀ (len : Nat) (off : WinIx) (s : State), Selects s .token → s.inLen - s.ip = 1 →
    exec (.matchTok len off) s = .next { s with run := .fault, err := .format, errPos := s.ip } ∧
      (s.hostIn = [] → step s = .next { s with run := .fault, err := .format, errPos := s.ip })

/-- R75, R127, R129, R130: an element whose precondition does not hold is not executed. That it is a fault of this name
is the model's choice (log entry 13). -/
def Obligations.ElementOutOfPlaceStops : Prop :=
  ∀ (i : Instr) (s : State), i.context ≠ .command → ¬ Selects s i.context →
    exec i s = .fault .elementNotSelected

/-- R125, R128: where DECODE runs and input remains, a step executes the element that the decoder's position selects and
its bytes decode to; the slot loop then adds 1 to `slot` after LIT and MATCH. A step with a pending write to `CMD`
executes the command its value decodes to. -/
def Obligations.StepRunsTheDecodedInstruction : Prop :=
  (∀ (s : State) (c : Context) (i : Instr) (rest : List Byte), s.hostIn = [] → Selects s c →
    decode c (operandBytes s) = .ok i rest →
    step s = match exec i s with
      | .next t => .next (if c ≠ .flagByte ∧ t.run = .busy then { t with slot := t.slot + 1 } else t)
      | .fault f => .fault f
      | .refused r => .refused r) ∧
    ∀ (s : State) (v : Byte) (rest : List HostEvent) (i : Instr), s.hostIn = .writeCmd v :: rest →
      decode .command [v] = .ok i [] → step s = exec i { s with hostIn := rest }

/-- R128, R133, R136: where no input byte remains DECODE ends DONE, whatever the slot and the flag bits. -/
def Obligations.DecodeEndsWhereInputEnds : Prop :=
  ∀ s : State, s.Running .decode → s.inLen ≤ s.ip → step s = .next { s with run := .done }

/-- R47, R66: a step of DECODE leaves the encoder's registers and the index alone, a step of ENCODE the decoder's, and
neither changes `IN` or `IN_LEN`. -/
def Obligations.OperationsKeepTheirOwnRegisters : Prop :=
  ∀ s t : State, step s = .next t →
    (s.Running .decode →
      t.cnt = s.cnt ∧ t.idx = s.idx ∧ t.pos = s.pos ∧ t.flagAcc = s.flagAcc ∧ t.stage = s.stage ∧
        t.stageLen = s.stageLen ∧ t.inBuf = s.inBuf ∧ t.inLen = s.inLen) ∧
      (s.Running .encode →
        t.ip = s.ip ∧ t.flagSr = s.flagSr ∧ t.src = s.src ∧ t.rem = s.rem ∧ t.inBuf = s.inBuf ∧ t.inLen = s.inLen)

/-- R42, R52: while an operation runs `OUT` is only appended to. -/
def Obligations.OutputOnlyGrows : Prop :=
  ∀ s t : State, s.run = .busy → s.hostIn = [] → step s = .next t → s.out <+: t.out

/-- R22, R24 to R26, R28, R30 to R32, R35, R37, R40: every step keeps the state's invariants. -/
def Obligations.EveryStepKeepsTheInvariants : Prop :=
  ∀ s t : State, s.Inv → step s = .next t → t.Inv

/-- R45: the invariants hold right after reset. -/
def Obligations.ResetMeetsTheInvariants : Prop := State.reset.Inv

/-- R13, R199: from a sound state a step answers a next state, unless the host changes its input while BUSY. That the
exception is a refusal is the model's choice (log entry 14). -/
def Obligations.SoundStatesNeverStop : Prop :=
  ∀ s : State, s.Inv →
    (∃ t, step s = .next t) ∨
      (step s = .refused .inputChangedWhileBusy ∧ s.run = .busy ∧
        ∃ e rest, s.hostIn = e :: rest ∧ ((∃ a b, e = .writeIn a b) ∨ ∃ n, e = .writeInLen n))

/-- R61, R131, R133, R137: while `STATUS.op` is DECODE the window holds the decoded bytes, newest first to be kept, and
`WIN_FILL` elsewhere; every step keeps it. -/
def Obligations.EveryStepKeepsTheDecodedWindow : Prop :=
  ∀ s t : State, (s.op = .decode → s.WindowHolds) → step s = .next t → t.op = .decode → t.WindowHolds

/-- R61, R92 to R94, R119: while ENCODE runs the dictionary holds exactly the input bytes before `pos`; every step keeps
it. -/
def Obligations.EveryStepKeepsTheDictionary : Prop :=
  ∀ s t : State, (s.run = .busy → s.op = .encode → s.DictionaryHolds) → step s = .next t →
    t.run = .busy → t.op = .encode → t.DictionaryHolds

/-- R132, R133: where the window holds the decoded bytes, what a batching decoder still has to flush is `WIN[0 .. cur-1]`,
and the last `W` output bytes are in the window. -/
def Obligations.WindowHoldsTheLastBytes : Prop :=
  ∀ s : State, s.WindowHolds →
    s.cur.toNat = s.outLen % 8192 ∧
      s.out.drop (8192 * (s.outLen / 8192)) = (List.range s.cur.toNat).map (fun i => winByte s (BitVec.ofNat 13 i)) ∧
      ∀ q, q < s.outLen → s.outLen ≤ q + 8192 → winByte s (BitVec.ofNat 13 q) = s.out.getD q 0

/-- R26, R92, R93, R94: after CLEAR and the pushes of `l`, the counters, the window and every bucket. -/
def Obligations.PushesFillTheDictionary : Prop :=
  ∀ (s : State) (l : List Byte),
    (pushAll l (clearInstance s)).cnt = l.length ∧
      (pushAll l (clearInstance s)).cur.toNat = l.length % 8192 ∧
      (∀ q, q < l.length → l.length ≤ q + 8192 →
        winByte (pushAll l (clearInstance s)) (BitVec.ofNat 13 q) = l.getD q 0) ∧
      ∀ h, bucket (pushAll l (clearInstance s)) h = refBucket s.cfg (fun q => l.getD q 0) l.length h

/-- R96: LOOKUP finds nothing where fewer than 2 bytes were pushed, fewer than 2 remain, or the bucket is empty. -/
def Obligations.LookupEarlyExits : Prop :=
  ∀ s : State,
    s.cnt < 2 ∨ s.inLen - s.pos < 2 ∨ bucket s (s.cfg.hash (inByte s s.pos) (inByte s (s.pos + 1))) = [] →
    lookup s = none

/-- R101, R121: a lookup's length is 3 to 10 and no longer than the remaining input. -/
def Obligations.LookupLengthBounds : Prop :=
  ∀ (s : State) (len : Nat) (off : WinIx), lookup s = some (len, off) →
    3 ≤ len ∧ len ≤ 10 ∧ s.pos + len ≤ s.inLen

/-- R97, R98: a lookup's offset is that of one of the 16 newest candidates of its bucket, not farther back than `W`. -/
def Obligations.LookupUsesOneOfTheNewestLive : Prop :=
  ∀ (s : State) (len : Nat) (off : WinIx), lookup s = some (len, off) →
    ∃ c ∈ newest 16 (bucket s (s.cfg.hash (inByte s s.pos) (inByte s (s.pos + 1)))),
      c.widx = off ∧ s.cnt - c.abs ≤ 8192

/-- R103: where the dictionary holds the input before `pos`, LOOKUP is the function of the input and the position that
R103 gives, under either `CMP_POLICY`. -/
def Obligations.LookupIsItsAbstractForm : Prop :=
  ∀ s : State, s.DictionaryHolds → s.pos < s.inLen →
    IsLookupResult s.cfg.cmpPolicy (inByte s) s.inLen s.pos (lookup s)

/-- R105: under any HASH a bucket holds exactly the candidates of one prefix value, and two dictionaries of the same input
give the same lookup, whatever their HASH is (and their `WIN_FILL`, R106). The output of ENCODE is in
EncodeIsAFunctionOfItsInput. -/
def Obligations.HashChoiceIsNotObservable : Prop :=
  (∀ (s : State) (b0 b1 : Byte), s.DictionaryHolds →
    bucket s (s.cfg.hash b0 b1) = prefixBucket (inByte s) s.pos b0 b1) ∧
    ∀ s₁ s₂ : State, s₁.DictionaryHolds → s₂.DictionaryHolds → inBytes s₁ = inBytes s₂ → s₁.pos = s₂.pos →
      s₁.cfg.cmpPolicy = s₂.cfg.cmpPolicy → lookup s₁ = lookup s₂

/-- R107: a decoder whose window and cursor equal the dictionary's expands a lookup's result to the input bytes. -/
def Obligations.LookupIsSound : Prop :=
  ∀ (s d : State) (len : Nat) (off : WinIx), s.DictionaryHolds → s.pos < s.inLen →
    lookup s = some (len, off) → (∀ i, winByte d i = winByte s i) → d.cur = s.cur →
    (copyBytes len (loadCopy len off d)).out = d.out ++ (List.range len).map fun k => inByte s (s.pos + k)

/-- R114, R116: where LOOKUP finds nothing the slot is a literal: one byte staged and pushed, `pos` advanced by 1, the
slot's flag bit set. -/
def Obligations.EncoderEmitsALiteral : Prop :=
  ∀ s : State, s.Running .encode → s.slot < 8 → s.pos < s.inLen → s.stageLen < 16 → lookup s = none →
    ∃ t, step s = .next t ∧ staged t = staged s ++ [inByte s s.pos] ∧
      (∀ j, winByte t j = if j = s.cur then inByte s s.pos else winByte s j) ∧
      (∀ i, i < 8 → flagBit t.flagAcc i = (flagBit s.flagAcc i || decide (i = s.slot))) ∧
      t = { s with
        win := t.win, cur := s.cur + 1, cnt := s.cnt + 1, idx := t.idx, pos := s.pos + 1, flagAcc := t.flagAcc,
        slot := s.slot + 1, stage := t.stage, stageLen := s.stageLen + 1 }

/-- R114, R115: where LOOKUP answers (len, off) the slot is a match: the token's two bytes staged, `len` input bytes
pushed, `pos` advanced by `len`, the flag byte left alone. -/
def Obligations.EncoderEmitsAMatch : Prop :=
  ∀ (s : State) (len : Nat) (off : WinIx), s.Running .encode → s.slot < 8 → s.pos < s.inLen → s.stageLen < 15 →
    lookup s = some (len, off) →
    ∃ t, step s = .next t ∧ staged t = staged s ++ encode (.matchTok len off) ∧
      (∀ k, k < len → winByte t (s.cur + BitVec.ofNat 13 k) = inByte s (s.pos + k)) ∧
      (∀ j, (∀ k, k < len → j ≠ s.cur + BitVec.ofNat 13 k) → winByte t j = winByte s j) ∧
      t = { s with
        win := t.win, cur := s.cur + BitVec.ofNat 13 len, cnt := s.cnt + len, idx := t.idx, pos := s.pos + len,
        slot := s.slot + 1, stage := t.stage, stageLen := s.stageLen + 2 }

/-- R110, R113, R117, R118: a full block, or the end of the input, closes the block: the flag byte, then the payloads in
slot order; then the next block opens, or the operation is DONE. That ENC.CLOSE, the outer loop's test and the block open
(or the end) are ONE step is the model's choice (log entry 17, DEDUCED); R117's ENC.CLOSE alone only appends to `OUT`. -/
def Obligations.EncoderClosesABlock : Prop :=
  ∀ s : State, s.Running .encode → 8 ≤ s.slot ∨ s.inLen ≤ s.pos →
    step s = .next (if s.pos < s.inLen
      then { s with out := s.out ++ s.flagAcc :: staged s, flagAcc := 0, slot := 0, stageLen := 0 }
      else { s with out := s.out ++ s.flagAcc :: staged s, run := .done })

/-- R118, R199: ENCODE of a non-empty input ends DONE with `pos = IN_LEN = cnt`, within one step for the command, one for
each slot and one for each block. What counts as a step is the model's choice (log entries 1 and 17). -/
def Obligations.EncodeEndsDone : Prop :=
  ∀ s : State, s.Commanded 2 → 0 < s.inLen →
    ∃ t, s.EndsWithin t (1 + s.inLen + (s.inLen + 7) / 8) ∧ statusByte t = 0x22 ∧ t.pos = s.inLen ∧
      t.cnt = s.inLen ∧ inBytes t = inBytes s

/-- R123: the size of the compressed stream. -/
def Obligations.EncodeOutputSize : Prop :=
  ∀ s t : State, s.Commanded 2 → 0 < s.inLen → s.EndsAt t →
    2 ≤ t.outLen ∧ t.outLen ≤ s.inLen + (s.inLen + 7) / 8

/-- R105, R106, R120: the compressed stream depends on the input and on `CMP_POLICY` alone, not on what the instance did
before, nor on HASH or `WIN_FILL`. -/
def Obligations.EncodeIsAFunctionOfItsInput : Prop :=
  ∀ s₁ s₂ t₁ t₂ : State, s₁.Commanded 2 → s₂.Commanded 2 → inBytes s₁ = inBytes s₂ →
    s₁.cfg.cmpPolicy = s₂.cfg.cmpPolicy → s₁.EndsAt t₁ → s₂.EndsAt t₂ → t₁.out = t₂.out ∧ t₁.run = t₂.run

/-- R125, R133, R134, R139, R199: DECODE is the function of the stream that the spec's decoder is, and ends within one
step for the command, one for each stream byte and one for the end. What counts as a step is the model's choice (log
entries 1 and 2). -/
def Obligations.DecodeIsItsStreamFunction : Prop :=
  ∀ s : State, s.Commanded 3 →
    ∃ t, s.EndsWithin t (s.inLen + 2) ∧
      match decodeStream s.cfg.winFill (inBytes s) with
      | .done out => statusByte t = 0x32 ∧ t.errPos = 0 ∧ t.out = out ∧ t.ip = s.inLen
      | .formatError out => statusByte t = 0x3B ∧ t.errPos + 1 = s.inLen ∧ t.out = out ∧ t.ip = t.errPos

/-- R138: the size of the decoded output. -/
def Obligations.DecodeOutputSize : Prop :=
  ∀ s t : State, s.Commanded 3 → s.EndsAt t → t.run = .done →
    (1 ≤ s.inLen → t.outLen ≤ 5 * (s.inLen - 1)) ∧ (s.inLen = 0 → t.outLen = 0)

/-- R122: for every non-empty input, ENCODE ends DONE, and DECODE of its output, on any instance, ends DONE with the
input. -/
def Obligations.DecodeOfEncodeReturnsTheInput : Prop :=
  ∀ s : State, s.Commanded 2 → 0 < s.inLen →
    ∃ t, s.EndsAt t ∧ t.run = .done ∧
      ∀ u : State, u.Commanded 3 → inBytes u = t.out →
        ∃ v, u.EndsAt v ∧ v.run = .done ∧ v.err = .noError ∧ v.out = inBytes s

/-- R83(a), R113, R116: the first slot of a compressed stream is a literal, and so is the second where there is a second
byte. -/
def Obligations.EncodeBeginsWithLiterals : Prop :=
  ∀ s t : State, s.Commanded 2 → 0 < s.inLen → s.EndsAt t →
    ∃ f rest, t.out = f :: inByte s 0 :: rest ∧ flagBit f 0 = true ∧
      (2 ≤ s.inLen → flagBit f 1 = true ∧ rest.head? = some (inByte s 1))

/-- R79, R103, R110, R113 to R117: ENCODE is a function of the input alone: the blocks of 8 slots of its greedy parse, in
which each lookup is the one of R103. -/
def Obligations.EncodeIsItsGreedyParse : Prop :=
  ∀ s t : State, s.Commanded 2 → s.EndsAt t → t.out = encodeInput s.cfg.cmpPolicy (inByte s) s.inLen

/-- R84: the streams that decode without error are exactly those of the grammar. -/
def Obligations.GrammarIsWhatDecodes : Prop :=
  ∀ (fill : Byte) (bytes : List Byte), (∃ out, decodeStream fill bytes = .done out) ↔ InGrammar bytes

/-- R85, R86: the expansion of `SLOTS` is a well-formed listing. -/
def Obligations.SlotsExpandToAWellFormedListing : Prop :=
  ∀ els : List Instr, (∀ e ∈ els, IsElement e) → listingWellFormed none (expandSlots els) = true

/-- R71, R84, R86, R129, R130: the stream that `SLOTS` emits decodes, without error, to what its elements add one after
the other. -/
def Obligations.SlotsDecodeElementByElement : Prop :=
  ∀ (fill : Byte) (els : List Instr), (∀ e ∈ els, IsElement e) →
    decodeStream fill (listingBytes (expandSlots els)) = .done (els.foldl (applyElement fill) [])
end

