-- ==== Sys2Proof/Laws/State.lean ====
section
/-! SUPPORT. The fields of the state after each named update: one lemma per field per update, each true by rfl. -/

namespace Sys2Proof.Machine

@[simp] theorem setWin_cfg (i : WinIx) (b : Byte) (s : State) : (setWin i b s).cfg = s.cfg := rfl
@[simp] theorem setWin_win (i : WinIx) (b : Byte) (s : State) : (setWin i b s).win = Memory.write (some s.cfg.winFill) s.win i.toNat b := rfl
@[simp] theorem setWin_cur (i : WinIx) (b : Byte) (s : State) : (setWin i b s).cur = s.cur := rfl
@[simp] theorem setWin_cnt (i : WinIx) (b : Byte) (s : State) : (setWin i b s).cnt = s.cnt := rfl
@[simp] theorem setWin_idx (i : WinIx) (b : Byte) (s : State) : (setWin i b s).idx = s.idx := rfl
@[simp] theorem setWin_pos (i : WinIx) (b : Byte) (s : State) : (setWin i b s).pos = s.pos := rfl
@[simp] theorem setWin_flagAcc (i : WinIx) (b : Byte) (s : State) : (setWin i b s).flagAcc = s.flagAcc := rfl
@[simp] theorem setWin_slot (i : WinIx) (b : Byte) (s : State) : (setWin i b s).slot = s.slot := rfl
@[simp] theorem setWin_stage (i : WinIx) (b : Byte) (s : State) : (setWin i b s).stage = s.stage := rfl
@[simp] theorem setWin_stageLen (i : WinIx) (b : Byte) (s : State) : (setWin i b s).stageLen = s.stageLen := rfl
@[simp] theorem setWin_ip (i : WinIx) (b : Byte) (s : State) : (setWin i b s).ip = s.ip := rfl
@[simp] theorem setWin_flagSr (i : WinIx) (b : Byte) (s : State) : (setWin i b s).flagSr = s.flagSr := rfl
@[simp] theorem setWin_src (i : WinIx) (b : Byte) (s : State) : (setWin i b s).src = s.src := rfl
@[simp] theorem setWin_rem (i : WinIx) (b : Byte) (s : State) : (setWin i b s).rem = s.rem := rfl
@[simp] theorem setWin_inBuf (i : WinIx) (b : Byte) (s : State) : (setWin i b s).inBuf = s.inBuf := rfl
@[simp] theorem setWin_inLen (i : WinIx) (b : Byte) (s : State) : (setWin i b s).inLen = s.inLen := rfl
@[simp] theorem setWin_out (i : WinIx) (b : Byte) (s : State) : (setWin i b s).out = s.out := rfl
@[simp] theorem setWin_run (i : WinIx) (b : Byte) (s : State) : (setWin i b s).run = s.run := rfl
@[simp] theorem setWin_err (i : WinIx) (b : Byte) (s : State) : (setWin i b s).err = s.err := rfl
@[simp] theorem setWin_op (i : WinIx) (b : Byte) (s : State) : (setWin i b s).op = s.op := rfl
@[simp] theorem setWin_errPos (i : WinIx) (b : Byte) (s : State) : (setWin i b s).errPos = s.errPos := rfl
@[simp] theorem setWin_hostIn (i : WinIx) (b : Byte) (s : State) : (setWin i b s).hostIn = s.hostIn := rfl

@[simp] theorem setIn_cfg (a : Nat) (b : Byte) (s : State) : (setIn a b s).cfg = s.cfg := rfl
@[simp] theorem setIn_win (a : Nat) (b : Byte) (s : State) : (setIn a b s).win = s.win := rfl
@[simp] theorem setIn_cur (a : Nat) (b : Byte) (s : State) : (setIn a b s).cur = s.cur := rfl
@[simp] theorem setIn_cnt (a : Nat) (b : Byte) (s : State) : (setIn a b s).cnt = s.cnt := rfl
@[simp] theorem setIn_idx (a : Nat) (b : Byte) (s : State) : (setIn a b s).idx = s.idx := rfl
@[simp] theorem setIn_pos (a : Nat) (b : Byte) (s : State) : (setIn a b s).pos = s.pos := rfl
@[simp] theorem setIn_flagAcc (a : Nat) (b : Byte) (s : State) : (setIn a b s).flagAcc = s.flagAcc := rfl
@[simp] theorem setIn_slot (a : Nat) (b : Byte) (s : State) : (setIn a b s).slot = s.slot := rfl
@[simp] theorem setIn_stage (a : Nat) (b : Byte) (s : State) : (setIn a b s).stage = s.stage := rfl
@[simp] theorem setIn_stageLen (a : Nat) (b : Byte) (s : State) : (setIn a b s).stageLen = s.stageLen := rfl
@[simp] theorem setIn_ip (a : Nat) (b : Byte) (s : State) : (setIn a b s).ip = s.ip := rfl
@[simp] theorem setIn_flagSr (a : Nat) (b : Byte) (s : State) : (setIn a b s).flagSr = s.flagSr := rfl
@[simp] theorem setIn_src (a : Nat) (b : Byte) (s : State) : (setIn a b s).src = s.src := rfl
@[simp] theorem setIn_rem (a : Nat) (b : Byte) (s : State) : (setIn a b s).rem = s.rem := rfl
@[simp] theorem setIn_inBuf (a : Nat) (b : Byte) (s : State) : (setIn a b s).inBuf = Memory.write none s.inBuf a b := rfl
@[simp] theorem setIn_inLen (a : Nat) (b : Byte) (s : State) : (setIn a b s).inLen = s.inLen := rfl
@[simp] theorem setIn_out (a : Nat) (b : Byte) (s : State) : (setIn a b s).out = s.out := rfl
@[simp] theorem setIn_run (a : Nat) (b : Byte) (s : State) : (setIn a b s).run = s.run := rfl
@[simp] theorem setIn_err (a : Nat) (b : Byte) (s : State) : (setIn a b s).err = s.err := rfl
@[simp] theorem setIn_op (a : Nat) (b : Byte) (s : State) : (setIn a b s).op = s.op := rfl
@[simp] theorem setIn_errPos (a : Nat) (b : Byte) (s : State) : (setIn a b s).errPos = s.errPos := rfl
@[simp] theorem setIn_hostIn (a : Nat) (b : Byte) (s : State) : (setIn a b s).hostIn = s.hostIn := rfl

@[simp] theorem raiseError_cfg (e : ErrCode) (p : Nat) (s : State) : (raiseError e p s).cfg = s.cfg := rfl
@[simp] theorem raiseError_win (e : ErrCode) (p : Nat) (s : State) : (raiseError e p s).win = s.win := rfl
@[simp] theorem raiseError_cur (e : ErrCode) (p : Nat) (s : State) : (raiseError e p s).cur = s.cur := rfl
@[simp] theorem raiseError_cnt (e : ErrCode) (p : Nat) (s : State) : (raiseError e p s).cnt = s.cnt := rfl
@[simp] theorem raiseError_idx (e : ErrCode) (p : Nat) (s : State) : (raiseError e p s).idx = s.idx := rfl
@[simp] theorem raiseError_pos (e : ErrCode) (p : Nat) (s : State) : (raiseError e p s).pos = s.pos := rfl
@[simp] theorem raiseError_flagAcc (e : ErrCode) (p : Nat) (s : State) : (raiseError e p s).flagAcc = s.flagAcc := rfl
@[simp] theorem raiseError_slot (e : ErrCode) (p : Nat) (s : State) : (raiseError e p s).slot = s.slot := rfl
@[simp] theorem raiseError_stage (e : ErrCode) (p : Nat) (s : State) : (raiseError e p s).stage = s.stage := rfl
@[simp] theorem raiseError_stageLen (e : ErrCode) (p : Nat) (s : State) : (raiseError e p s).stageLen = s.stageLen := rfl
@[simp] theorem raiseError_ip (e : ErrCode) (p : Nat) (s : State) : (raiseError e p s).ip = s.ip := rfl
@[simp] theorem raiseError_flagSr (e : ErrCode) (p : Nat) (s : State) : (raiseError e p s).flagSr = s.flagSr := rfl
@[simp] theorem raiseError_src (e : ErrCode) (p : Nat) (s : State) : (raiseError e p s).src = s.src := rfl
@[simp] theorem raiseError_rem (e : ErrCode) (p : Nat) (s : State) : (raiseError e p s).rem = s.rem := rfl
@[simp] theorem raiseError_inBuf (e : ErrCode) (p : Nat) (s : State) : (raiseError e p s).inBuf = s.inBuf := rfl
@[simp] theorem raiseError_inLen (e : ErrCode) (p : Nat) (s : State) : (raiseError e p s).inLen = s.inLen := rfl
@[simp] theorem raiseError_out (e : ErrCode) (p : Nat) (s : State) : (raiseError e p s).out = s.out := rfl
@[simp] theorem raiseError_run (e : ErrCode) (p : Nat) (s : State) : (raiseError e p s).run = .fault := rfl
@[simp] theorem raiseError_err (e : ErrCode) (p : Nat) (s : State) : (raiseError e p s).err = e := rfl
@[simp] theorem raiseError_op (e : ErrCode) (p : Nat) (s : State) : (raiseError e p s).op = s.op := rfl
@[simp] theorem raiseError_errPos (e : ErrCode) (p : Nat) (s : State) : (raiseError e p s).errPos = p := rfl
@[simp] theorem raiseError_hostIn (e : ErrCode) (p : Nat) (s : State) : (raiseError e p s).hostIn = s.hostIn := rfl

@[simp] theorem accept_cfg (o : OpCode) (s : State) : (accept o s).cfg = s.cfg := rfl
@[simp] theorem accept_win (o : OpCode) (s : State) : (accept o s).win = s.win := rfl
@[simp] theorem accept_cur (o : OpCode) (s : State) : (accept o s).cur = s.cur := rfl
@[simp] theorem accept_cnt (o : OpCode) (s : State) : (accept o s).cnt = s.cnt := rfl
@[simp] theorem accept_idx (o : OpCode) (s : State) : (accept o s).idx = s.idx := rfl
@[simp] theorem accept_pos (o : OpCode) (s : State) : (accept o s).pos = s.pos := rfl
@[simp] theorem accept_flagAcc (o : OpCode) (s : State) : (accept o s).flagAcc = s.flagAcc := rfl
@[simp] theorem accept_slot (o : OpCode) (s : State) : (accept o s).slot = s.slot := rfl
@[simp] theorem accept_stage (o : OpCode) (s : State) : (accept o s).stage = s.stage := rfl
@[simp] theorem accept_stageLen (o : OpCode) (s : State) : (accept o s).stageLen = s.stageLen := rfl
@[simp] theorem accept_ip (o : OpCode) (s : State) : (accept o s).ip = s.ip := rfl
@[simp] theorem accept_flagSr (o : OpCode) (s : State) : (accept o s).flagSr = s.flagSr := rfl
@[simp] theorem accept_src (o : OpCode) (s : State) : (accept o s).src = s.src := rfl
@[simp] theorem accept_rem (o : OpCode) (s : State) : (accept o s).rem = s.rem := rfl
@[simp] theorem accept_inBuf (o : OpCode) (s : State) : (accept o s).inBuf = s.inBuf := rfl
@[simp] theorem accept_inLen (o : OpCode) (s : State) : (accept o s).inLen = s.inLen := rfl
@[simp] theorem accept_out (o : OpCode) (s : State) : (accept o s).out = [] := rfl
@[simp] theorem accept_run (o : OpCode) (s : State) : (accept o s).run = s.run := rfl
@[simp] theorem accept_err (o : OpCode) (s : State) : (accept o s).err = .noError := rfl
@[simp] theorem accept_op (o : OpCode) (s : State) : (accept o s).op = o := rfl
@[simp] theorem accept_errPos (o : OpCode) (s : State) : (accept o s).errPos = 0 := rfl
@[simp] theorem accept_hostIn (o : OpCode) (s : State) : (accept o s).hostIn = s.hostIn := rfl

@[simp] theorem clearInstance_cfg (s : State) : (clearInstance s).cfg = s.cfg := rfl
@[simp] theorem clearInstance_win (s : State) : (clearInstance s).win = [] := rfl
@[simp] theorem clearInstance_cur (s : State) : (clearInstance s).cur = 0 := rfl
@[simp] theorem clearInstance_cnt (s : State) : (clearInstance s).cnt = 0 := rfl
@[simp] theorem clearInstance_idx (s : State) : (clearInstance s).idx = [] := rfl
@[simp] theorem clearInstance_pos (s : State) : (clearInstance s).pos = 0 := rfl
@[simp] theorem clearInstance_flagAcc (s : State) : (clearInstance s).flagAcc = 0 := rfl
@[simp] theorem clearInstance_slot (s : State) : (clearInstance s).slot = 0 := rfl
@[simp] theorem clearInstance_stage (s : State) : (clearInstance s).stage = s.stage := rfl
@[simp] theorem clearInstance_stageLen (s : State) : (clearInstance s).stageLen = 0 := rfl
@[simp] theorem clearInstance_ip (s : State) : (clearInstance s).ip = 0 := rfl
@[simp] theorem clearInstance_flagSr (s : State) : (clearInstance s).flagSr = 0 := rfl
@[simp] theorem clearInstance_src (s : State) : (clearInstance s).src = s.src := rfl
@[simp] theorem clearInstance_rem (s : State) : (clearInstance s).rem = 0 := rfl
@[simp] theorem clearInstance_inBuf (s : State) : (clearInstance s).inBuf = s.inBuf := rfl
@[simp] theorem clearInstance_inLen (s : State) : (clearInstance s).inLen = s.inLen := rfl
@[simp] theorem clearInstance_out (s : State) : (clearInstance s).out = [] := rfl
@[simp] theorem clearInstance_run (s : State) : (clearInstance s).run = s.run := rfl
@[simp] theorem clearInstance_err (s : State) : (clearInstance s).err = s.err := rfl
@[simp] theorem clearInstance_op (s : State) : (clearInstance s).op = s.op := rfl
@[simp] theorem clearInstance_errPos (s : State) : (clearInstance s).errPos = 0 := rfl
@[simp] theorem clearInstance_hostIn (s : State) : (clearInstance s).hostIn = s.hostIn := rfl

@[simp] theorem setBusy_cfg (s : State) : (setBusy s).cfg = s.cfg := rfl
@[simp] theorem setBusy_win (s : State) : (setBusy s).win = s.win := rfl
@[simp] theorem setBusy_cur (s : State) : (setBusy s).cur = s.cur := rfl
@[simp] theorem setBusy_cnt (s : State) : (setBusy s).cnt = s.cnt := rfl
@[simp] theorem setBusy_idx (s : State) : (setBusy s).idx = s.idx := rfl
@[simp] theorem setBusy_pos (s : State) : (setBusy s).pos = s.pos := rfl
@[simp] theorem setBusy_flagAcc (s : State) : (setBusy s).flagAcc = s.flagAcc := rfl
@[simp] theorem setBusy_slot (s : State) : (setBusy s).slot = s.slot := rfl
@[simp] theorem setBusy_stage (s : State) : (setBusy s).stage = s.stage := rfl
@[simp] theorem setBusy_stageLen (s : State) : (setBusy s).stageLen = s.stageLen := rfl
@[simp] theorem setBusy_ip (s : State) : (setBusy s).ip = s.ip := rfl
@[simp] theorem setBusy_flagSr (s : State) : (setBusy s).flagSr = s.flagSr := rfl
@[simp] theorem setBusy_src (s : State) : (setBusy s).src = s.src := rfl
@[simp] theorem setBusy_rem (s : State) : (setBusy s).rem = s.rem := rfl
@[simp] theorem setBusy_inBuf (s : State) : (setBusy s).inBuf = s.inBuf := rfl
@[simp] theorem setBusy_inLen (s : State) : (setBusy s).inLen = s.inLen := rfl
@[simp] theorem setBusy_out (s : State) : (setBusy s).out = s.out := rfl
@[simp] theorem setBusy_run (s : State) : (setBusy s).run = .busy := rfl
@[simp] theorem setBusy_err (s : State) : (setBusy s).err = s.err := rfl
@[simp] theorem setBusy_op (s : State) : (setBusy s).op = s.op := rfl
@[simp] theorem setBusy_errPos (s : State) : (setBusy s).errPos = s.errPos := rfl
@[simp] theorem setBusy_hostIn (s : State) : (setBusy s).hostIn = s.hostIn := rfl

@[simp] theorem finish_cfg (s : State) : (finish s).cfg = s.cfg := rfl
@[simp] theorem finish_win (s : State) : (finish s).win = s.win := rfl
@[simp] theorem finish_cur (s : State) : (finish s).cur = s.cur := rfl
@[simp] theorem finish_cnt (s : State) : (finish s).cnt = s.cnt := rfl
@[simp] theorem finish_idx (s : State) : (finish s).idx = s.idx := rfl
@[simp] theorem finish_pos (s : State) : (finish s).pos = s.pos := rfl
@[simp] theorem finish_flagAcc (s : State) : (finish s).flagAcc = s.flagAcc := rfl
@[simp] theorem finish_slot (s : State) : (finish s).slot = s.slot := rfl
@[simp] theorem finish_stage (s : State) : (finish s).stage = s.stage := rfl
@[simp] theorem finish_stageLen (s : State) : (finish s).stageLen = s.stageLen := rfl
@[simp] theorem finish_ip (s : State) : (finish s).ip = s.ip := rfl
@[simp] theorem finish_flagSr (s : State) : (finish s).flagSr = s.flagSr := rfl
@[simp] theorem finish_src (s : State) : (finish s).src = s.src := rfl
@[simp] theorem finish_rem (s : State) : (finish s).rem = s.rem := rfl
@[simp] theorem finish_inBuf (s : State) : (finish s).inBuf = s.inBuf := rfl
@[simp] theorem finish_inLen (s : State) : (finish s).inLen = s.inLen := rfl
@[simp] theorem finish_out (s : State) : (finish s).out = s.out := rfl
@[simp] theorem finish_run (s : State) : (finish s).run = .done := rfl
@[simp] theorem finish_err (s : State) : (finish s).err = s.err := rfl
@[simp] theorem finish_op (s : State) : (finish s).op = s.op := rfl
@[simp] theorem finish_errPos (s : State) : (finish s).errPos = s.errPos := rfl
@[simp] theorem finish_hostIn (s : State) : (finish s).hostIn = s.hostIn := rfl

@[simp] theorem writeByte_cfg (b : Byte) (s : State) : (writeByte b s).cfg = s.cfg := rfl
@[simp] theorem writeByte_win (b : Byte) (s : State) : (writeByte b s).win = (setWin s.cur b s).win := rfl
@[simp] theorem writeByte_cur (b : Byte) (s : State) : (writeByte b s).cur = s.cur + 1 := rfl
@[simp] theorem writeByte_cnt (b : Byte) (s : State) : (writeByte b s).cnt = s.cnt := rfl
@[simp] theorem writeByte_idx (b : Byte) (s : State) : (writeByte b s).idx = s.idx := rfl
@[simp] theorem writeByte_pos (b : Byte) (s : State) : (writeByte b s).pos = s.pos := rfl
@[simp] theorem writeByte_flagAcc (b : Byte) (s : State) : (writeByte b s).flagAcc = s.flagAcc := rfl
@[simp] theorem writeByte_slot (b : Byte) (s : State) : (writeByte b s).slot = s.slot := rfl
@[simp] theorem writeByte_stage (b : Byte) (s : State) : (writeByte b s).stage = s.stage := rfl
@[simp] theorem writeByte_stageLen (b : Byte) (s : State) : (writeByte b s).stageLen = s.stageLen := rfl
@[simp] theorem writeByte_ip (b : Byte) (s : State) : (writeByte b s).ip = s.ip := rfl
@[simp] theorem writeByte_flagSr (b : Byte) (s : State) : (writeByte b s).flagSr = s.flagSr := rfl
@[simp] theorem writeByte_src (b : Byte) (s : State) : (writeByte b s).src = s.src := rfl
@[simp] theorem writeByte_rem (b : Byte) (s : State) : (writeByte b s).rem = s.rem := rfl
@[simp] theorem writeByte_inBuf (b : Byte) (s : State) : (writeByte b s).inBuf = s.inBuf := rfl
@[simp] theorem writeByte_inLen (b : Byte) (s : State) : (writeByte b s).inLen = s.inLen := rfl
@[simp] theorem writeByte_out (b : Byte) (s : State) : (writeByte b s).out = s.out ++ [b] := rfl
@[simp] theorem writeByte_run (b : Byte) (s : State) : (writeByte b s).run = s.run := rfl
@[simp] theorem writeByte_err (b : Byte) (s : State) : (writeByte b s).err = s.err := rfl
@[simp] theorem writeByte_op (b : Byte) (s : State) : (writeByte b s).op = s.op := rfl
@[simp] theorem writeByte_errPos (b : Byte) (s : State) : (writeByte b s).errPos = s.errPos := rfl
@[simp] theorem writeByte_hostIn (b : Byte) (s : State) : (writeByte b s).hostIn = s.hostIn := rfl

@[simp] theorem advanceIp_cfg (k : Nat) (s : State) : (advanceIp k s).cfg = s.cfg := rfl
@[simp] theorem advanceIp_win (k : Nat) (s : State) : (advanceIp k s).win = s.win := rfl
@[simp] theorem advanceIp_cur (k : Nat) (s : State) : (advanceIp k s).cur = s.cur := rfl
@[simp] theorem advanceIp_cnt (k : Nat) (s : State) : (advanceIp k s).cnt = s.cnt := rfl
@[simp] theorem advanceIp_idx (k : Nat) (s : State) : (advanceIp k s).idx = s.idx := rfl
@[simp] theorem advanceIp_pos (k : Nat) (s : State) : (advanceIp k s).pos = s.pos := rfl
@[simp] theorem advanceIp_flagAcc (k : Nat) (s : State) : (advanceIp k s).flagAcc = s.flagAcc := rfl
@[simp] theorem advanceIp_slot (k : Nat) (s : State) : (advanceIp k s).slot = s.slot := rfl
@[simp] theorem advanceIp_stage (k : Nat) (s : State) : (advanceIp k s).stage = s.stage := rfl
@[simp] theorem advanceIp_stageLen (k : Nat) (s : State) : (advanceIp k s).stageLen = s.stageLen := rfl
@[simp] theorem advanceIp_ip (k : Nat) (s : State) : (advanceIp k s).ip = s.ip + k := rfl
@[simp] theorem advanceIp_flagSr (k : Nat) (s : State) : (advanceIp k s).flagSr = s.flagSr := rfl
@[simp] theorem advanceIp_src (k : Nat) (s : State) : (advanceIp k s).src = s.src := rfl
@[simp] theorem advanceIp_rem (k : Nat) (s : State) : (advanceIp k s).rem = s.rem := rfl
@[simp] theorem advanceIp_inBuf (k : Nat) (s : State) : (advanceIp k s).inBuf = s.inBuf := rfl
@[simp] theorem advanceIp_inLen (k : Nat) (s : State) : (advanceIp k s).inLen = s.inLen := rfl
@[simp] theorem advanceIp_out (k : Nat) (s : State) : (advanceIp k s).out = s.out := rfl
@[simp] theorem advanceIp_run (k : Nat) (s : State) : (advanceIp k s).run = s.run := rfl
@[simp] theorem advanceIp_err (k : Nat) (s : State) : (advanceIp k s).err = s.err := rfl
@[simp] theorem advanceIp_op (k : Nat) (s : State) : (advanceIp k s).op = s.op := rfl
@[simp] theorem advanceIp_errPos (k : Nat) (s : State) : (advanceIp k s).errPos = s.errPos := rfl
@[simp] theorem advanceIp_hostIn (k : Nat) (s : State) : (advanceIp k s).hostIn = s.hostIn := rfl

@[simp] theorem nextSlot_cfg (s : State) : (nextSlot s).cfg = s.cfg := rfl
@[simp] theorem nextSlot_win (s : State) : (nextSlot s).win = s.win := rfl
@[simp] theorem nextSlot_cur (s : State) : (nextSlot s).cur = s.cur := rfl
@[simp] theorem nextSlot_cnt (s : State) : (nextSlot s).cnt = s.cnt := rfl
@[simp] theorem nextSlot_idx (s : State) : (nextSlot s).idx = s.idx := rfl
@[simp] theorem nextSlot_pos (s : State) : (nextSlot s).pos = s.pos := rfl
@[simp] theorem nextSlot_flagAcc (s : State) : (nextSlot s).flagAcc = s.flagAcc := rfl
@[simp] theorem nextSlot_slot (s : State) : (nextSlot s).slot = s.slot + 1 := rfl
@[simp] theorem nextSlot_stage (s : State) : (nextSlot s).stage = s.stage := rfl
@[simp] theorem nextSlot_stageLen (s : State) : (nextSlot s).stageLen = s.stageLen := rfl
@[simp] theorem nextSlot_ip (s : State) : (nextSlot s).ip = s.ip := rfl
@[simp] theorem nextSlot_flagSr (s : State) : (nextSlot s).flagSr = s.flagSr := rfl
@[simp] theorem nextSlot_src (s : State) : (nextSlot s).src = s.src := rfl
@[simp] theorem nextSlot_rem (s : State) : (nextSlot s).rem = s.rem := rfl
@[simp] theorem nextSlot_inBuf (s : State) : (nextSlot s).inBuf = s.inBuf := rfl
@[simp] theorem nextSlot_inLen (s : State) : (nextSlot s).inLen = s.inLen := rfl
@[simp] theorem nextSlot_out (s : State) : (nextSlot s).out = s.out := rfl
@[simp] theorem nextSlot_run (s : State) : (nextSlot s).run = s.run := rfl
@[simp] theorem nextSlot_err (s : State) : (nextSlot s).err = s.err := rfl
@[simp] theorem nextSlot_op (s : State) : (nextSlot s).op = s.op := rfl
@[simp] theorem nextSlot_errPos (s : State) : (nextSlot s).errPos = s.errPos := rfl
@[simp] theorem nextSlot_hostIn (s : State) : (nextSlot s).hostIn = s.hostIn := rfl

@[simp] theorem loadCopy_cfg (len : Nat) (off : WinIx) (s : State) : (loadCopy len off s).cfg = s.cfg := rfl
@[simp] theorem loadCopy_win (len : Nat) (off : WinIx) (s : State) : (loadCopy len off s).win = s.win := rfl
@[simp] theorem loadCopy_cur (len : Nat) (off : WinIx) (s : State) : (loadCopy len off s).cur = s.cur := rfl
@[simp] theorem loadCopy_cnt (len : Nat) (off : WinIx) (s : State) : (loadCopy len off s).cnt = s.cnt := rfl
@[simp] theorem loadCopy_idx (len : Nat) (off : WinIx) (s : State) : (loadCopy len off s).idx = s.idx := rfl
@[simp] theorem loadCopy_pos (len : Nat) (off : WinIx) (s : State) : (loadCopy len off s).pos = s.pos := rfl
@[simp] theorem loadCopy_flagAcc (len : Nat) (off : WinIx) (s : State) : (loadCopy len off s).flagAcc = s.flagAcc := rfl
@[simp] theorem loadCopy_slot (len : Nat) (off : WinIx) (s : State) : (loadCopy len off s).slot = s.slot := rfl
@[simp] theorem loadCopy_stage (len : Nat) (off : WinIx) (s : State) : (loadCopy len off s).stage = s.stage := rfl
@[simp] theorem loadCopy_stageLen (len : Nat) (off : WinIx) (s : State) : (loadCopy len off s).stageLen = s.stageLen := rfl
@[simp] theorem loadCopy_ip (len : Nat) (off : WinIx) (s : State) : (loadCopy len off s).ip = s.ip := rfl
@[simp] theorem loadCopy_flagSr (len : Nat) (off : WinIx) (s : State) : (loadCopy len off s).flagSr = s.flagSr := rfl
@[simp] theorem loadCopy_src (len : Nat) (off : WinIx) (s : State) : (loadCopy len off s).src = off := rfl
@[simp] theorem loadCopy_rem (len : Nat) (off : WinIx) (s : State) : (loadCopy len off s).rem = len := rfl
@[simp] theorem loadCopy_inBuf (len : Nat) (off : WinIx) (s : State) : (loadCopy len off s).inBuf = s.inBuf := rfl
@[simp] theorem loadCopy_inLen (len : Nat) (off : WinIx) (s : State) : (loadCopy len off s).inLen = s.inLen := rfl
@[simp] theorem loadCopy_out (len : Nat) (off : WinIx) (s : State) : (loadCopy len off s).out = s.out := rfl
@[simp] theorem loadCopy_run (len : Nat) (off : WinIx) (s : State) : (loadCopy len off s).run = s.run := rfl
@[simp] theorem loadCopy_err (len : Nat) (off : WinIx) (s : State) : (loadCopy len off s).err = s.err := rfl
@[simp] theorem loadCopy_op (len : Nat) (off : WinIx) (s : State) : (loadCopy len off s).op = s.op := rfl
@[simp] theorem loadCopy_errPos (len : Nat) (off : WinIx) (s : State) : (loadCopy len off s).errPos = s.errPos := rfl
@[simp] theorem loadCopy_hostIn (len : Nat) (off : WinIx) (s : State) : (loadCopy len off s).hostIn = s.hostIn := rfl

@[simp] theorem copyOne_cfg (s : State) : (copyOne s).cfg = s.cfg := rfl
@[simp] theorem copyOne_win (s : State) : (copyOne s).win = (setWin s.cur (winByte s s.src) s).win := rfl
@[simp] theorem copyOne_cur (s : State) : (copyOne s).cur = s.cur + 1 := rfl
@[simp] theorem copyOne_cnt (s : State) : (copyOne s).cnt = s.cnt := rfl
@[simp] theorem copyOne_idx (s : State) : (copyOne s).idx = s.idx := rfl
@[simp] theorem copyOne_pos (s : State) : (copyOne s).pos = s.pos := rfl
@[simp] theorem copyOne_flagAcc (s : State) : (copyOne s).flagAcc = s.flagAcc := rfl
@[simp] theorem copyOne_slot (s : State) : (copyOne s).slot = s.slot := rfl
@[simp] theorem copyOne_stage (s : State) : (copyOne s).stage = s.stage := rfl
@[simp] theorem copyOne_stageLen (s : State) : (copyOne s).stageLen = s.stageLen := rfl
@[simp] theorem copyOne_ip (s : State) : (copyOne s).ip = s.ip := rfl
@[simp] theorem copyOne_flagSr (s : State) : (copyOne s).flagSr = s.flagSr := rfl
@[simp] theorem copyOne_src (s : State) : (copyOne s).src = s.src + 1 := rfl
@[simp] theorem copyOne_rem (s : State) : (copyOne s).rem = s.rem - 1 := rfl
@[simp] theorem copyOne_inBuf (s : State) : (copyOne s).inBuf = s.inBuf := rfl
@[simp] theorem copyOne_inLen (s : State) : (copyOne s).inLen = s.inLen := rfl
@[simp] theorem copyOne_out (s : State) : (copyOne s).out = s.out ++ [winByte s s.src] := rfl
@[simp] theorem copyOne_run (s : State) : (copyOne s).run = s.run := rfl
@[simp] theorem copyOne_err (s : State) : (copyOne s).err = s.err := rfl
@[simp] theorem copyOne_op (s : State) : (copyOne s).op = s.op := rfl
@[simp] theorem copyOne_errPos (s : State) : (copyOne s).errPos = s.errPos := rfl
@[simp] theorem copyOne_hostIn (s : State) : (copyOne s).hostIn = s.hostIn := rfl

@[simp] theorem pushWindow_cfg (b : Byte) (s : State) : (pushWindow b s).cfg = s.cfg := rfl
@[simp] theorem pushWindow_win (b : Byte) (s : State) : (pushWindow b s).win = (setWin s.cur b s).win := rfl
@[simp] theorem pushWindow_cur (b : Byte) (s : State) : (pushWindow b s).cur = s.cur + 1 := rfl
@[simp] theorem pushWindow_cnt (b : Byte) (s : State) : (pushWindow b s).cnt = s.cnt + 1 := rfl
@[simp] theorem pushWindow_idx (b : Byte) (s : State) : (pushWindow b s).idx = s.idx := rfl
@[simp] theorem pushWindow_pos (b : Byte) (s : State) : (pushWindow b s).pos = s.pos := rfl
@[simp] theorem pushWindow_flagAcc (b : Byte) (s : State) : (pushWindow b s).flagAcc = s.flagAcc := rfl
@[simp] theorem pushWindow_slot (b : Byte) (s : State) : (pushWindow b s).slot = s.slot := rfl
@[simp] theorem pushWindow_stage (b : Byte) (s : State) : (pushWindow b s).stage = s.stage := rfl
@[simp] theorem pushWindow_stageLen (b : Byte) (s : State) : (pushWindow b s).stageLen = s.stageLen := rfl
@[simp] theorem pushWindow_ip (b : Byte) (s : State) : (pushWindow b s).ip = s.ip := rfl
@[simp] theorem pushWindow_flagSr (b : Byte) (s : State) : (pushWindow b s).flagSr = s.flagSr := rfl
@[simp] theorem pushWindow_src (b : Byte) (s : State) : (pushWindow b s).src = s.src := rfl
@[simp] theorem pushWindow_rem (b : Byte) (s : State) : (pushWindow b s).rem = s.rem := rfl
@[simp] theorem pushWindow_inBuf (b : Byte) (s : State) : (pushWindow b s).inBuf = s.inBuf := rfl
@[simp] theorem pushWindow_inLen (b : Byte) (s : State) : (pushWindow b s).inLen = s.inLen := rfl
@[simp] theorem pushWindow_out (b : Byte) (s : State) : (pushWindow b s).out = s.out := rfl
@[simp] theorem pushWindow_run (b : Byte) (s : State) : (pushWindow b s).run = s.run := rfl
@[simp] theorem pushWindow_err (b : Byte) (s : State) : (pushWindow b s).err = s.err := rfl
@[simp] theorem pushWindow_op (b : Byte) (s : State) : (pushWindow b s).op = s.op := rfl
@[simp] theorem pushWindow_errPos (b : Byte) (s : State) : (pushWindow b s).errPos = s.errPos := rfl
@[simp] theorem pushWindow_hostIn (b : Byte) (s : State) : (pushWindow b s).hostIn = s.hostIn := rfl

@[simp] theorem pushIndex_cfg (s : State) : (pushIndex s).cfg = s.cfg := rfl
@[simp] theorem pushIndex_win (s : State) : (pushIndex s).win = s.win := rfl
@[simp] theorem pushIndex_cur (s : State) : (pushIndex s).cur = s.cur := rfl
@[simp] theorem pushIndex_cnt (s : State) : (pushIndex s).cnt = s.cnt := rfl
@[simp] theorem pushIndex_pos (s : State) : (pushIndex s).pos = s.pos := rfl
@[simp] theorem pushIndex_flagAcc (s : State) : (pushIndex s).flagAcc = s.flagAcc := rfl
@[simp] theorem pushIndex_slot (s : State) : (pushIndex s).slot = s.slot := rfl
@[simp] theorem pushIndex_stage (s : State) : (pushIndex s).stage = s.stage := rfl
@[simp] theorem pushIndex_stageLen (s : State) : (pushIndex s).stageLen = s.stageLen := rfl
@[simp] theorem pushIndex_ip (s : State) : (pushIndex s).ip = s.ip := rfl
@[simp] theorem pushIndex_flagSr (s : State) : (pushIndex s).flagSr = s.flagSr := rfl
@[simp] theorem pushIndex_src (s : State) : (pushIndex s).src = s.src := rfl
@[simp] theorem pushIndex_rem (s : State) : (pushIndex s).rem = s.rem := rfl
@[simp] theorem pushIndex_inBuf (s : State) : (pushIndex s).inBuf = s.inBuf := rfl
@[simp] theorem pushIndex_inLen (s : State) : (pushIndex s).inLen = s.inLen := rfl
@[simp] theorem pushIndex_out (s : State) : (pushIndex s).out = s.out := rfl
@[simp] theorem pushIndex_run (s : State) : (pushIndex s).run = s.run := rfl
@[simp] theorem pushIndex_err (s : State) : (pushIndex s).err = s.err := rfl
@[simp] theorem pushIndex_op (s : State) : (pushIndex s).op = s.op := rfl
@[simp] theorem pushIndex_errPos (s : State) : (pushIndex s).errPos = s.errPos := rfl
@[simp] theorem pushIndex_hostIn (s : State) : (pushIndex s).hostIn = s.hostIn := rfl

@[simp] theorem push_cfg (b : Byte) (s : State) : (push b s).cfg = s.cfg := rfl
@[simp] theorem push_win (b : Byte) (s : State) : (push b s).win = (setWin s.cur b s).win := rfl
@[simp] theorem push_cur (b : Byte) (s : State) : (push b s).cur = s.cur + 1 := rfl
@[simp] theorem push_cnt (b : Byte) (s : State) : (push b s).cnt = s.cnt + 1 := rfl
@[simp] theorem push_pos (b : Byte) (s : State) : (push b s).pos = s.pos := rfl
@[simp] theorem push_flagAcc (b : Byte) (s : State) : (push b s).flagAcc = s.flagAcc := rfl
@[simp] theorem push_slot (b : Byte) (s : State) : (push b s).slot = s.slot := rfl
@[simp] theorem push_stage (b : Byte) (s : State) : (push b s).stage = s.stage := rfl
@[simp] theorem push_stageLen (b : Byte) (s : State) : (push b s).stageLen = s.stageLen := rfl
@[simp] theorem push_ip (b : Byte) (s : State) : (push b s).ip = s.ip := rfl
@[simp] theorem push_flagSr (b : Byte) (s : State) : (push b s).flagSr = s.flagSr := rfl
@[simp] theorem push_src (b : Byte) (s : State) : (push b s).src = s.src := rfl
@[simp] theorem push_rem (b : Byte) (s : State) : (push b s).rem = s.rem := rfl
@[simp] theorem push_inBuf (b : Byte) (s : State) : (push b s).inBuf = s.inBuf := rfl
@[simp] theorem push_inLen (b : Byte) (s : State) : (push b s).inLen = s.inLen := rfl
@[simp] theorem push_out (b : Byte) (s : State) : (push b s).out = s.out := rfl
@[simp] theorem push_run (b : Byte) (s : State) : (push b s).run = s.run := rfl
@[simp] theorem push_err (b : Byte) (s : State) : (push b s).err = s.err := rfl
@[simp] theorem push_op (b : Byte) (s : State) : (push b s).op = s.op := rfl
@[simp] theorem push_errPos (b : Byte) (s : State) : (push b s).errPos = s.errPos := rfl
@[simp] theorem push_hostIn (b : Byte) (s : State) : (push b s).hostIn = s.hostIn := rfl

@[simp] theorem stageByte_cfg (b : Byte) (s : State) : (stageByte b s).cfg = s.cfg := rfl
@[simp] theorem stageByte_win (b : Byte) (s : State) : (stageByte b s).win = s.win := rfl
@[simp] theorem stageByte_cur (b : Byte) (s : State) : (stageByte b s).cur = s.cur := rfl
@[simp] theorem stageByte_cnt (b : Byte) (s : State) : (stageByte b s).cnt = s.cnt := rfl
@[simp] theorem stageByte_idx (b : Byte) (s : State) : (stageByte b s).idx = s.idx := rfl
@[simp] theorem stageByte_pos (b : Byte) (s : State) : (stageByte b s).pos = s.pos := rfl
@[simp] theorem stageByte_flagAcc (b : Byte) (s : State) : (stageByte b s).flagAcc = s.flagAcc := rfl
@[simp] theorem stageByte_slot (b : Byte) (s : State) : (stageByte b s).slot = s.slot := rfl
@[simp] theorem stageByte_stage (b : Byte) (s : State) : (stageByte b s).stage = s.stage.setIfInBounds s.stageLen b := rfl
@[simp] theorem stageByte_stageLen (b : Byte) (s : State) : (stageByte b s).stageLen = s.stageLen + 1 := rfl
@[simp] theorem stageByte_ip (b : Byte) (s : State) : (stageByte b s).ip = s.ip := rfl
@[simp] theorem stageByte_flagSr (b : Byte) (s : State) : (stageByte b s).flagSr = s.flagSr := rfl
@[simp] theorem stageByte_src (b : Byte) (s : State) : (stageByte b s).src = s.src := rfl
@[simp] theorem stageByte_rem (b : Byte) (s : State) : (stageByte b s).rem = s.rem := rfl
@[simp] theorem stageByte_inBuf (b : Byte) (s : State) : (stageByte b s).inBuf = s.inBuf := rfl
@[simp] theorem stageByte_inLen (b : Byte) (s : State) : (stageByte b s).inLen = s.inLen := rfl
@[simp] theorem stageByte_out (b : Byte) (s : State) : (stageByte b s).out = s.out := rfl
@[simp] theorem stageByte_run (b : Byte) (s : State) : (stageByte b s).run = s.run := rfl
@[simp] theorem stageByte_err (b : Byte) (s : State) : (stageByte b s).err = s.err := rfl
@[simp] theorem stageByte_op (b : Byte) (s : State) : (stageByte b s).op = s.op := rfl
@[simp] theorem stageByte_errPos (b : Byte) (s : State) : (stageByte b s).errPos = s.errPos := rfl
@[simp] theorem stageByte_hostIn (b : Byte) (s : State) : (stageByte b s).hostIn = s.hostIn := rfl

@[simp] theorem openBlock_cfg (s : State) : (openBlock s).cfg = s.cfg := rfl
@[simp] theorem openBlock_win (s : State) : (openBlock s).win = s.win := rfl
@[simp] theorem openBlock_cur (s : State) : (openBlock s).cur = s.cur := rfl
@[simp] theorem openBlock_cnt (s : State) : (openBlock s).cnt = s.cnt := rfl
@[simp] theorem openBlock_idx (s : State) : (openBlock s).idx = s.idx := rfl
@[simp] theorem openBlock_pos (s : State) : (openBlock s).pos = s.pos := rfl
@[simp] theorem openBlock_flagAcc (s : State) : (openBlock s).flagAcc = 0 := rfl
@[simp] theorem openBlock_slot (s : State) : (openBlock s).slot = 0 := rfl
@[simp] theorem openBlock_stage (s : State) : (openBlock s).stage = s.stage := rfl
@[simp] theorem openBlock_stageLen (s : State) : (openBlock s).stageLen = 0 := rfl
@[simp] theorem openBlock_ip (s : State) : (openBlock s).ip = s.ip := rfl
@[simp] theorem openBlock_flagSr (s : State) : (openBlock s).flagSr = s.flagSr := rfl
@[simp] theorem openBlock_src (s : State) : (openBlock s).src = s.src := rfl
@[simp] theorem openBlock_rem (s : State) : (openBlock s).rem = s.rem := rfl
@[simp] theorem openBlock_inBuf (s : State) : (openBlock s).inBuf = s.inBuf := rfl
@[simp] theorem openBlock_inLen (s : State) : (openBlock s).inLen = s.inLen := rfl
@[simp] theorem openBlock_out (s : State) : (openBlock s).out = s.out := rfl
@[simp] theorem openBlock_run (s : State) : (openBlock s).run = s.run := rfl
@[simp] theorem openBlock_err (s : State) : (openBlock s).err = s.err := rfl
@[simp] theorem openBlock_op (s : State) : (openBlock s).op = s.op := rfl
@[simp] theorem openBlock_errPos (s : State) : (openBlock s).errPos = s.errPos := rfl
@[simp] theorem openBlock_hostIn (s : State) : (openBlock s).hostIn = s.hostIn := rfl

@[simp] theorem encClose_cfg (s : State) : (encClose s).cfg = s.cfg := rfl
@[simp] theorem encClose_win (s : State) : (encClose s).win = s.win := rfl
@[simp] theorem encClose_cur (s : State) : (encClose s).cur = s.cur := rfl
@[simp] theorem encClose_cnt (s : State) : (encClose s).cnt = s.cnt := rfl
@[simp] theorem encClose_idx (s : State) : (encClose s).idx = s.idx := rfl
@[simp] theorem encClose_pos (s : State) : (encClose s).pos = s.pos := rfl
@[simp] theorem encClose_flagAcc (s : State) : (encClose s).flagAcc = s.flagAcc := rfl
@[simp] theorem encClose_slot (s : State) : (encClose s).slot = s.slot := rfl
@[simp] theorem encClose_stage (s : State) : (encClose s).stage = s.stage := rfl
@[simp] theorem encClose_stageLen (s : State) : (encClose s).stageLen = s.stageLen := rfl
@[simp] theorem encClose_ip (s : State) : (encClose s).ip = s.ip := rfl
@[simp] theorem encClose_flagSr (s : State) : (encClose s).flagSr = s.flagSr := rfl
@[simp] theorem encClose_src (s : State) : (encClose s).src = s.src := rfl
@[simp] theorem encClose_rem (s : State) : (encClose s).rem = s.rem := rfl
@[simp] theorem encClose_inBuf (s : State) : (encClose s).inBuf = s.inBuf := rfl
@[simp] theorem encClose_inLen (s : State) : (encClose s).inLen = s.inLen := rfl
@[simp] theorem encClose_out (s : State) : (encClose s).out = s.out ++ s.flagAcc :: staged s := rfl
@[simp] theorem encClose_run (s : State) : (encClose s).run = s.run := rfl
@[simp] theorem encClose_err (s : State) : (encClose s).err = s.err := rfl
@[simp] theorem encClose_op (s : State) : (encClose s).op = s.op := rfl
@[simp] theorem encClose_errPos (s : State) : (encClose s).errPos = s.errPos := rfl
@[simp] theorem encClose_hostIn (s : State) : (encClose s).hostIn = s.hostIn := rfl

@[simp] theorem hardReset_cfg (s : State) : (hardReset s).cfg = s.cfg := rfl
@[simp] theorem hardReset_win (s : State) : (hardReset s).win = State.reset.win := rfl
@[simp] theorem hardReset_cur (s : State) : (hardReset s).cur = State.reset.cur := rfl
@[simp] theorem hardReset_cnt (s : State) : (hardReset s).cnt = State.reset.cnt := rfl
@[simp] theorem hardReset_idx (s : State) : (hardReset s).idx = State.reset.idx := rfl
@[simp] theorem hardReset_pos (s : State) : (hardReset s).pos = State.reset.pos := rfl
@[simp] theorem hardReset_flagAcc (s : State) : (hardReset s).flagAcc = State.reset.flagAcc := rfl
@[simp] theorem hardReset_slot (s : State) : (hardReset s).slot = State.reset.slot := rfl
@[simp] theorem hardReset_stage (s : State) : (hardReset s).stage = State.reset.stage := rfl
@[simp] theorem hardReset_stageLen (s : State) : (hardReset s).stageLen = State.reset.stageLen := rfl
@[simp] theorem hardReset_ip (s : State) : (hardReset s).ip = State.reset.ip := rfl
@[simp] theorem hardReset_flagSr (s : State) : (hardReset s).flagSr = State.reset.flagSr := rfl
@[simp] theorem hardReset_src (s : State) : (hardReset s).src = State.reset.src := rfl
@[simp] theorem hardReset_rem (s : State) : (hardReset s).rem = State.reset.rem := rfl
@[simp] theorem hardReset_inBuf (s : State) : (hardReset s).inBuf = State.reset.inBuf := rfl
@[simp] theorem hardReset_inLen (s : State) : (hardReset s).inLen = State.reset.inLen := rfl
@[simp] theorem hardReset_out (s : State) : (hardReset s).out = State.reset.out := rfl
@[simp] theorem hardReset_run (s : State) : (hardReset s).run = State.reset.run := rfl
@[simp] theorem hardReset_err (s : State) : (hardReset s).err = State.reset.err := rfl
@[simp] theorem hardReset_op (s : State) : (hardReset s).op = State.reset.op := rfl
@[simp] theorem hardReset_errPos (s : State) : (hardReset s).errPos = State.reset.errPos := rfl
@[simp] theorem hardReset_hostIn (s : State) : (hardReset s).hostIn = s.hostIn := rfl

end Sys2Proof.Machine
end

