-- ==== Sys2Proof/Laws/Memory.lean ====
section
/-! SUPPORT. The laws of the sparse tables and of the byte memories: a read after a write, and the canonical form that
every write keeps. -/

namespace Sys2Proof.Machine

variable {α : Type}

theorem Table.get_put_same (t : List (Nat × α)) (k : Nat) (v : α) : Table.get (Table.put t k v) k = some v := by
  induction t with
  | nil => simp [Table.put, Table.get]
  | cons e rest ih =>
    obtain ⟨k', v'⟩ := e
    simp only [Table.put]
    split
    · simp [Table.get]
    · split
      · simp [Table.get]
      · rename_i _ hne
        rw [Table.get, if_neg (Ne.symm hne), ih]

theorem Table.get_put_other (t : List (Nat × α)) {k k' : Nat} (v : α) (h : k' ≠ k) :
    Table.get (Table.put t k v) k' = Table.get t k' := by
  induction t with
  | nil => simp [Table.put, Table.get, Ne.symm h]
  | cons e rest ih =>
    obtain ⟨j, w⟩ := e
    simp only [Table.put]
    split
    · simp [Table.get, Ne.symm h]
    · split
      · rename_i hj
        subst hj
        simp [Table.get, Ne.symm h]
      · simp [Table.get, ih]

theorem Table.get_del_same (t : List (Nat × α)) (k : Nat) : Table.get (Table.del t k) k = none := by
  induction t with
  | nil => rfl
  | cons e rest ih =>
    obtain ⟨j, w⟩ := e
    by_cases hj : j = k
    · simpa [Table.del, hj] using ih
    · simpa [Table.del, hj, Table.get] using ih

theorem Table.get_del_other (t : List (Nat × α)) {k k' : Nat} (h : k' ≠ k) :
    Table.get (Table.del t k) k' = Table.get t k' := by
  induction t with
  | nil => rfl
  | cons e rest ih =>
    obtain ⟨j, w⟩ := e
    by_cases hj : j = k
    · subst hj
      simpa [Table.del, Table.get, Ne.symm h] using ih
    · simpa [Table.del, Table.get, hj] using congrArg (fun o => if j = k' then some w else o) ih

/-- An entry after `put` is the new one or was there before. -/
theorem Table.mem_put {t : List (Nat × α)} {k : Nat} {v : α} {e : Nat × α} (h : e ∈ Table.put t k v) :
    e = (k, v) ∨ e ∈ t := by
  induction t with
  | nil => exact .inl (by simpa [Table.put] using h)
  | cons x rest ih =>
    obtain ⟨j, w⟩ := x
    simp only [Table.put] at h
    split at h
    · exact List.mem_cons.mp h
    · split at h
      · exact (List.mem_cons.mp h).imp id (List.mem_cons_of_mem _)
      · rcases List.mem_cons.mp h with h | h
        · exact .inr (by simp [h])
        · exact (ih h).imp id (List.mem_cons_of_mem _)

theorem Table.put_sorted {t : List (Nat × α)} (k : Nat) (v : α) (h : Table.Sorted t) :
    Table.Sorted (Table.put t k v) := by
  induction t with
  | nil => simp [Table.put, Table.Sorted]
  | cons x rest ih =>
    obtain ⟨j, w⟩ := x
    obtain ⟨hx, hr⟩ := List.pairwise_cons.mp h
    simp only [Table.put]
    split
    · rename_i hlt
      refine List.pairwise_cons.mpr ⟨fun e he => ?_, h⟩
      rcases List.mem_cons.mp he with rfl | he
      · exact hlt
      · exact lt_trans hlt (hx e he)
    · split
      · rename_i heq
        subst heq
        exact List.pairwise_cons.mpr ⟨hx, hr⟩
      · refine List.pairwise_cons.mpr ⟨fun e he => ?_, ih hr⟩
        rcases Table.mem_put he with rfl | he
        · dsimp only at *
          omega
        · exact hx e he

theorem Table.del_sorted {t : List (Nat × α)} (k : Nat) (h : Table.Sorted t) : Table.Sorted (Table.del t k) :=
  h.filter _

/-- In a sorted table an entry is what its key reads as. -/
theorem Table.get_of_mem {t : List (Nat × α)} (h : Table.Sorted t) {e : Nat × α} (he : e ∈ t) :
    Table.get t e.1 = some e.2 := by
  induction t with
  | nil => cases he
  | cons x rest ih =>
    obtain ⟨hx, hr⟩ := List.pairwise_cons.mp h
    rcases List.mem_cons.mp he with rfl | he
    · simp [Table.get]
    · have := hx e he
      rw [Table.get, if_neg (by omega), ih hr he]

/-- What a key reads as is an entry. -/
theorem Table.mem_of_get {t : List (Nat × α)} {k : Nat} {v : α} (h : Table.get t k = some v) : (k, v) ∈ t := by
  induction t with
  | nil => cases h
  | cons x rest ih =>
    obtain ⟨j, w⟩ := x
    simp only [Table.get] at h
    split at h
    · rename_i hj
      cases h
      simp [hj]
    · exact List.mem_cons_of_mem _ (ih h)

theorem Memory.read_write_same (fill : Option Byte) (m : List Host.Cell) (a : Nat) (b : Byte) :
    Memory.read fill (Memory.write fill m a b) a = some b := by
  by_cases h : fill = some b
  · rw [Memory.write, if_pos h, Memory.read, Table.get_del_same, h]
  · rw [Memory.write, if_neg h, Memory.read, Table.get_put_same]

theorem Memory.read_write_other (fill : Option Byte) (m : List Host.Cell) {a a' : Nat} (b : Byte) (h : a' ≠ a) :
    Memory.read fill (Memory.write fill m a b) a' = Memory.read fill m a' := by
  by_cases hf : fill = some b
  · rw [Memory.write, if_pos hf, Memory.read, Table.get_del_other _ h, Memory.read]
  · rw [Memory.write, if_neg hf, Memory.read, Table.get_put_other _ _ h, Memory.read]

/-- Every write keeps the canonical form. -/
theorem Memory.write_wf {fill : Option Byte} {m : List Host.Cell} (a : Nat) (b : Byte) (h : Memory.wf fill m) :
    Memory.wf fill (Memory.write fill m a b) := by
  unfold Memory.write
  split
  · exact ⟨Table.del_sorted a h.1, fun e he => h.2 e (List.mem_of_mem_filter he)⟩
  · rename_i hf
    refine ⟨Table.put_sorted a b h.1, fun e he => ?_⟩
    rcases Table.mem_put he with rfl | he
    · exact hf
    · exact h.2 e he

/-- A write lists no address but the one written and those listed before. -/
theorem Memory.mem_write {fill : Option Byte} {m : List Host.Cell} {a : Nat} {b : Byte} {e : Host.Cell}
    (h : e ∈ Memory.write fill m a b) : e.1 = a ∨ e ∈ m := by
  unfold Memory.write at h
  split at h
  · exact .inr (List.mem_of_mem_filter h)
  · exact (Table.mem_put h).imp (fun he => by rw [he]) id

theorem Memory.nil_wf (fill : Option Byte) : Memory.wf fill [] := ⟨List.Pairwise.nil, by simp⟩

/-- The memories of the reset state have the canonical form. -/
theorem reset_memory_wf : Memory.wf (some State.reset.cfg.winFill) State.reset.win ∧ Memory.wf none State.reset.inBuf :=
  ⟨Memory.nil_wf _, Memory.nil_wf _⟩

theorem winByte_congr {s t : State} (hw : t.win = s.win) (hc : t.cfg = s.cfg) : winByte t = winByte s := by
  funext i
  simp [winByte, hw, hc]

theorem inByte_congr {s t : State} (h : t.inBuf = s.inBuf) : inByte t = inByte s := by
  funext a
  simp [inByte, h]

theorem bucket_congr {s t : State} (h : t.idx = s.idx) : bucket t = bucket s := by
  funext k
  simp [bucket, h]

@[simp] theorem winByte_setWin_same (i : WinIx) (b : Byte) (s : State) : winByte (setWin i b s) i = b := by
  simp [winByte, Memory.read_write_same]

theorem winByte_setWin_other {i j : WinIx} (b : Byte) (s : State) (h : j ≠ i) :
    winByte (setWin i b s) j = winByte s j := by
  have : j.toNat ≠ i.toNat := fun e => h (BitVec.eq_of_toNat_eq e)
  simp [winByte, Memory.read_write_other _ _ b this]

/-- The window after a store, at every index. -/
theorem winByte_setWin (i j : WinIx) (b : Byte) (s : State) :
    winByte (setWin i b s) j = if j = i then b else winByte s j := by
  split
  · rename_i h
    rw [h, winByte_setWin_same]
  · rename_i h
    exact winByte_setWin_other b s h

@[simp] theorem inByte_setIn_same (a : Nat) (b : Byte) (s : State) : inByte (setIn a b s) a = b := by
  simp [inByte, Memory.read_write_same]

theorem inByte_setIn_other {a a' : Nat} (b : Byte) (s : State) (h : a' ≠ a) :
    inByte (setIn a b s) a' = inByte s a' := by
  simp [inByte, Memory.read_write_other _ _ b h]

theorem winByte_of_win_nil {s : State} (h : s.win = []) (i : WinIx) : winByte s i = s.cfg.winFill := by
  simp [winByte, h, Memory.read, Table.get]

theorem bucket_of_idx_nil {s : State} (h : s.idx = []) (k : Hash) : bucket s k = [] := by
  simp [bucket, h, Table.get]

end Sys2Proof.Machine
end

