-- ==== Sys2Proof/Laws/Ops.lean ====
section
/-! SUPPORT. What each shared operation can do, said once: the fields a copy and a run of pushes leave alone, the window
and the buckets after a store, the bounds of an extension and of a scan. -/

namespace Sys2Proof.Machine

@[simp] theorem copyBytes_cfg (n : Nat) (s : State) : (copyBytes n s).cfg = s.cfg := by
  induction n generalizing s with
  | zero => rfl
  | succ n ih => rw [copyBytes, ih, copyOne_cfg]

@[simp] theorem copyBytes_cnt (n : Nat) (s : State) : (copyBytes n s).cnt = s.cnt := by
  induction n generalizing s with
  | zero => rfl
  | succ n ih => rw [copyBytes, ih, copyOne_cnt]

@[simp] theorem copyBytes_idx (n : Nat) (s : State) : (copyBytes n s).idx = s.idx := by
  induction n generalizing s with
  | zero => rfl
  | succ n ih => rw [copyBytes, ih, copyOne_idx]

@[simp] theorem copyBytes_pos (n : Nat) (s : State) : (copyBytes n s).pos = s.pos := by
  induction n generalizing s with
  | zero => rfl
  | succ n ih => rw [copyBytes, ih, copyOne_pos]

@[simp] theorem copyBytes_flagAcc (n : Nat) (s : State) : (copyBytes n s).flagAcc = s.flagAcc := by
  induction n generalizing s with
  | zero => rfl
  | succ n ih => rw [copyBytes, ih, copyOne_flagAcc]

@[simp] theorem copyBytes_slot (n : Nat) (s : State) : (copyBytes n s).slot = s.slot := by
  induction n generalizing s with
  | zero => rfl
  | succ n ih => rw [copyBytes, ih, copyOne_slot]

@[simp] theorem copyBytes_stage (n : Nat) (s : State) : (copyBytes n s).stage = s.stage := by
  induction n generalizing s with
  | zero => rfl
  | succ n ih => rw [copyBytes, ih, copyOne_stage]

@[simp] theorem copyBytes_stageLen (n : Nat) (s : State) : (copyBytes n s).stageLen = s.stageLen := by
  induction n generalizing s with
  | zero => rfl
  | succ n ih => rw [copyBytes, ih, copyOne_stageLen]

@[simp] theorem copyBytes_ip (n : Nat) (s : State) : (copyBytes n s).ip = s.ip := by
  induction n generalizing s with
  | zero => rfl
  | succ n ih => rw [copyBytes, ih, copyOne_ip]

@[simp] theorem copyBytes_flagSr (n : Nat) (s : State) : (copyBytes n s).flagSr = s.flagSr := by
  induction n generalizing s with
  | zero => rfl
  | succ n ih => rw [copyBytes, ih, copyOne_flagSr]

@[simp] theorem copyBytes_inBuf (n : Nat) (s : State) : (copyBytes n s).inBuf = s.inBuf := by
  induction n generalizing s with
  | zero => rfl
  | succ n ih => rw [copyBytes, ih, copyOne_inBuf]

@[simp] theorem copyBytes_inLen (n : Nat) (s : State) : (copyBytes n s).inLen = s.inLen := by
  induction n generalizing s with
  | zero => rfl
  | succ n ih => rw [copyBytes, ih, copyOne_inLen]

@[simp] theorem copyBytes_run (n : Nat) (s : State) : (copyBytes n s).run = s.run := by
  induction n generalizing s with
  | zero => rfl
  | succ n ih => rw [copyBytes, ih, copyOne_run]

@[simp] theorem copyBytes_err (n : Nat) (s : State) : (copyBytes n s).err = s.err := by
  induction n generalizing s with
  | zero => rfl
  | succ n ih => rw [copyBytes, ih, copyOne_err]

@[simp] theorem copyBytes_op (n : Nat) (s : State) : (copyBytes n s).op = s.op := by
  induction n generalizing s with
  | zero => rfl
  | succ n ih => rw [copyBytes, ih, copyOne_op]

@[simp] theorem copyBytes_errPos (n : Nat) (s : State) : (copyBytes n s).errPos = s.errPos := by
  induction n generalizing s with
  | zero => rfl
  | succ n ih => rw [copyBytes, ih, copyOne_errPos]

@[simp] theorem copyBytes_hostIn (n : Nat) (s : State) : (copyBytes n s).hostIn = s.hostIn := by
  induction n generalizing s with
  | zero => rfl
  | succ n ih => rw [copyBytes, ih, copyOne_hostIn]

@[simp] theorem pushAll_cfg (l : List Byte) (s : State) : (pushAll l s).cfg = s.cfg := by
  induction l generalizing s with
  | nil => rfl
  | cons b l ih => rw [pushAll, ih, push_cfg]

@[simp] theorem pushAll_pos (l : List Byte) (s : State) : (pushAll l s).pos = s.pos := by
  induction l generalizing s with
  | nil => rfl
  | cons b l ih => rw [pushAll, ih, push_pos]

@[simp] theorem pushAll_flagAcc (l : List Byte) (s : State) : (pushAll l s).flagAcc = s.flagAcc := by
  induction l generalizing s with
  | nil => rfl
  | cons b l ih => rw [pushAll, ih, push_flagAcc]

@[simp] theorem pushAll_slot (l : List Byte) (s : State) : (pushAll l s).slot = s.slot := by
  induction l generalizing s with
  | nil => rfl
  | cons b l ih => rw [pushAll, ih, push_slot]

@[simp] theorem pushAll_stage (l : List Byte) (s : State) : (pushAll l s).stage = s.stage := by
  induction l generalizing s with
  | nil => rfl
  | cons b l ih => rw [pushAll, ih, push_stage]

@[simp] theorem pushAll_stageLen (l : List Byte) (s : State) : (pushAll l s).stageLen = s.stageLen := by
  induction l generalizing s with
  | nil => rfl
  | cons b l ih => rw [pushAll, ih, push_stageLen]

@[simp] theorem pushAll_ip (l : List Byte) (s : State) : (pushAll l s).ip = s.ip := by
  induction l generalizing s with
  | nil => rfl
  | cons b l ih => rw [pushAll, ih, push_ip]

@[simp] theorem pushAll_flagSr (l : List Byte) (s : State) : (pushAll l s).flagSr = s.flagSr := by
  induction l generalizing s with
  | nil => rfl
  | cons b l ih => rw [pushAll, ih, push_flagSr]

@[simp] theorem pushAll_src (l : List Byte) (s : State) : (pushAll l s).src = s.src := by
  induction l generalizing s with
  | nil => rfl
  | cons b l ih => rw [pushAll, ih, push_src]

@[simp] theorem pushAll_rem (l : List Byte) (s : State) : (pushAll l s).rem = s.rem := by
  induction l generalizing s with
  | nil => rfl
  | cons b l ih => rw [pushAll, ih, push_rem]

@[simp] theorem pushAll_inBuf (l : List Byte) (s : State) : (pushAll l s).inBuf = s.inBuf := by
  induction l generalizing s with
  | nil => rfl
  | cons b l ih => rw [pushAll, ih, push_inBuf]

@[simp] theorem pushAll_inLen (l : List Byte) (s : State) : (pushAll l s).inLen = s.inLen := by
  induction l generalizing s with
  | nil => rfl
  | cons b l ih => rw [pushAll, ih, push_inLen]

@[simp] theorem pushAll_out (l : List Byte) (s : State) : (pushAll l s).out = s.out := by
  induction l generalizing s with
  | nil => rfl
  | cons b l ih => rw [pushAll, ih, push_out]

@[simp] theorem pushAll_run (l : List Byte) (s : State) : (pushAll l s).run = s.run := by
  induction l generalizing s with
  | nil => rfl
  | cons b l ih => rw [pushAll, ih, push_run]

@[simp] theorem pushAll_err (l : List Byte) (s : State) : (pushAll l s).err = s.err := by
  induction l generalizing s with
  | nil => rfl
  | cons b l ih => rw [pushAll, ih, push_err]

@[simp] theorem pushAll_op (l : List Byte) (s : State) : (pushAll l s).op = s.op := by
  induction l generalizing s with
  | nil => rfl
  | cons b l ih => rw [pushAll, ih, push_op]

@[simp] theorem pushAll_errPos (l : List Byte) (s : State) : (pushAll l s).errPos = s.errPos := by
  induction l generalizing s with
  | nil => rfl
  | cons b l ih => rw [pushAll, ih, push_errPos]

@[simp] theorem pushAll_hostIn (l : List Byte) (s : State) : (pushAll l s).hostIn = s.hostIn := by
  induction l generalizing s with
  | nil => rfl
  | cons b l ih => rw [pushAll, ih, push_hostIn]

theorem ofNat_succ_add (c : WinIx) (n : Nat) : c + 1 + BitVec.ofNat 13 n = c + BitVec.ofNat 13 (n + 1) := by
  rw [Nat.add_comm n 1, BitVec.ofNat_add, ← BitVec.add_assoc]
  rfl

@[simp] theorem copyBytes_cur (n : Nat) (s : State) : (copyBytes n s).cur = s.cur + BitVec.ofNat 13 n := by
  induction n generalizing s with
  | zero => simp [copyBytes]
  | succ n ih => rw [copyBytes, ih, copyOne_cur, ofNat_succ_add]

@[simp] theorem copyBytes_src (n : Nat) (s : State) : (copyBytes n s).src = s.src + BitVec.ofNat 13 n := by
  induction n generalizing s with
  | zero => simp [copyBytes]
  | succ n ih => rw [copyBytes, ih, copyOne_src, ofNat_succ_add]

@[simp] theorem copyBytes_rem (n : Nat) (s : State) : (copyBytes n s).rem = s.rem - n := by
  induction n generalizing s with
  | zero => rfl
  | succ n ih =>
    rw [copyBytes, ih, copyOne_rem]
    omega

theorem copyBytes_out_length (n : Nat) (s : State) : (copyBytes n s).out.length = s.out.length + n := by
  induction n generalizing s with
  | zero => rfl
  | succ n ih =>
    rw [copyBytes, ih, copyOne_out, List.length_append, List.length_singleton]
    omega

/-- A copy only appends to `OUT`. -/
theorem copyBytes_out_prefix (n : Nat) (s : State) : s.out <+: (copyBytes n s).out := by
  induction n generalizing s with
  | zero => exact List.prefix_rfl
  | succ n ih => exact (List.prefix_append s.out [winByte s s.src]).trans (ih (copyOne s))

@[simp] theorem pushAll_cur (l : List Byte) (s : State) : (pushAll l s).cur = s.cur + BitVec.ofNat 13 l.length := by
  induction l generalizing s with
  | nil => simp [pushAll]
  | cons b l ih => rw [pushAll, ih, push_cur, ofNat_succ_add, List.length_cons]

@[simp] theorem pushAll_cnt (l : List Byte) (s : State) : (pushAll l s).cnt = s.cnt + l.length := by
  induction l generalizing s with
  | nil => rfl
  | cons b l ih =>
    rw [pushAll, ih, push_cnt, List.length_cons]
    omega

@[simp] theorem pushAll_append (l m : List Byte) (s : State) : pushAll (l ++ m) s = pushAll m (pushAll l s) := by
  induction l generalizing s with
  | nil => rfl
  | cons b l ih => exact ih (push b s)

/-- The window after WRITE(b), at every index. -/
theorem winByte_writeByte (b : Byte) (s : State) (j : WinIx) :
    winByte (writeByte b s) j = if j = s.cur then b else winByte s j := by
  rw [winByte_congr (t := writeByte b s) (s := setWin s.cur b s) rfl rfl, winByte_setWin]

/-- The window after one iteration of a copy, at every index. -/
theorem winByte_copyOne (s : State) (j : WinIx) :
    winByte (copyOne s) j = if j = s.cur then winByte s s.src else winByte s j := by
  rw [winByte_congr (t := copyOne s) (s := writeByte (winByte s s.src) s) rfl rfl, winByte_writeByte]

/-- The window after PUSH(b), at every index. -/
theorem winByte_push (b : Byte) (s : State) (j : WinIx) :
    winByte (push b s) j = if j = s.cur then b else winByte s j := by
  rw [winByte_congr (t := push b s) (s := setWin s.cur b s) rfl rfl, winByte_setWin]

/-- An exchange undoes itself, so every list of exchanges is injective (R95). -/
theorem swapHash_swapHash (h : Hash) (p : Hash × Hash) : swapHash (swapHash h p) p = h := by
  unfold swapHash
  split_ifs <;> simp_all

/-- Without exchanges HASH is the default (R95). -/
theorem hash_of_no_swaps {c : Config} (h : c.hashSwaps = []) : c.hash = packPrefix := by
  funext b0 b1
  rw [Config.hash, h, List.foldl_nil]

/-- The buckets after the first PUSH since CLEAR: as before (R93). -/
theorem bucket_push_first (b : Byte) (s : State) (h : s.cnt = 0) : bucket (push b s) = bucket s := by
  refine bucket_congr ?_
  simp [push, pushIndex, h]

/-- The buckets after a later PUSH: the prefix of the two newest bytes enters its bucket (R93, R94). -/
theorem bucket_push (b : Byte) (s : State) (h : 1 ≤ s.cnt) (k : Hash) :
    bucket (push b s) k =
      if k = s.cfg.hash (winByte (push b s) (s.cur - 1)) b then
        newest Config.bucketCap (bucket s k ++ [{ widx := s.cur - 1, abs := s.cnt - 1 }])
      else bucket s k := by
  have hcur : s.cur + 1 - 2 = s.cur - 1 := by bv_omega
  have hb : winByte (pushWindow b s) (s.cur - 1 + 1) = b := by
    have hs : s.cur - 1 + 1 = s.cur := by bv_omega
    rw [hs, winByte_congr (t := pushWindow b s) (s := setWin s.cur b s) rfl rfl, winByte_setWin_same]
  have hw : winByte (push b s) = winByte (pushWindow b s) := winByte_congr rfl rfl
  rw [hw]
  have hidx : (push b s).idx = Table.put s.idx (s.cfg.hash (winByte (pushWindow b s) (s.cur - 1)) b).toNat
      (newest Config.bucketCap (bucket s (s.cfg.hash (winByte (pushWindow b s) (s.cur - 1)) b) ++
        [{ widx := s.cur - 1, abs := s.cnt - 1 }])) := by
    have h2 : 2 ≤ s.cnt + 1 := by omega
    have h1 : s.cnt + 1 - 2 = s.cnt - 1 := by omega
    have hbk : bucket (pushWindow b s) = bucket s := bucket_congr rfl
    simp only [push, pushIndex, pushWindow_cfg, pushWindow_cur, pushWindow_idx, pushWindow_cnt, hcur, hb, hbk, h1, if_pos h2]
  split
  · rename_i hk
    rw [bucket, hidx, ← hk, Table.get_put_same, Option.getD_some]
  · rename_i hk
    have : k.toNat ≠ (s.cfg.hash (winByte (pushWindow b s) (s.cur - 1)) b).toNat :=
      fun e => hk (BitVec.eq_of_toNat_eq e)
    rw [bucket, hidx, Table.get_put_other _ _ this, bucket]

/-- An extension starts at `l` and goes at most `fuel` further. -/
theorem extend_bounds (s : State) (p : WinIx) (d fuel l : Nat) :
    l ≤ extend s p d fuel l ∧ extend s p d fuel l ≤ l + fuel := by
  induction fuel generalizing l with
  | zero => simp [extend]
  | succ fuel ih =>
    have := ih (l + 1)
    simp only [extend]
    split
    · omega
    · split <;> omega

/-- What a scan answers: the best it was given, or the extension of a live candidate (R98 to R100). -/
theorem scan_cases (s : State) (maxlen : Nat) (l : List Candidate) (best : Nat × WinIx) :
    scan s maxlen l best = best ∨
      ∃ c ∈ l, s.cnt - c.abs ≤ Config.windowSize ∧
        scan s maxlen l best = (extend s c.widx (s.cnt - c.abs) maxlen 0, c.widx) := by
  induction l generalizing best with
  | nil => exact .inl rfl
  | cons c rest ih =>
    have keep : ∀ {best'}, (best' = best ∨ s.cnt - c.abs ≤ Config.windowSize ∧
        best' = (extend s c.widx (s.cnt - c.abs) maxlen 0, c.widx)) →
        (scan s maxlen rest best' = best ∨ ∃ x ∈ c :: rest, s.cnt - x.abs ≤ Config.windowSize ∧
          scan s maxlen rest best' = (extend s x.widx (s.cnt - x.abs) maxlen 0, x.widx)) := by
      intro best' hb
      rcases ih best' with h | ⟨x, hx, hd, h⟩
      · rcases hb with rfl | ⟨hd, rfl⟩
        · exact .inl h
        · exact .inr ⟨c, by simp, hd, h⟩
      · exact .inr ⟨x, by simp [hx], hd, h⟩
    rw [scan]
    dsimp only
    split
    · exact keep (.inl rfl)
    · rename_i hd
      have hd' : s.cnt - c.abs ≤ Config.windowSize := Nat.le_of_not_lt hd
      split
      · split
        · exact .inr ⟨c, by simp, hd', rfl⟩
        · exact keep (.inr ⟨hd', rfl⟩)
      · split
        · exact .inl rfl
        · exact keep (.inl rfl)

@[simp] theorem newest_length {β : Type} (n : Nat) (l : List β) : (newest n l).length = min n l.length := by
  simp only [newest, List.length_drop]
  omega

theorem mem_of_mem_newest {β : Type} {n : Nat} {l : List β} {x : β} (h : x ∈ newest n l) : x ∈ l :=
  List.mem_of_mem_drop h

@[simp] theorem inBytes_length (s : State) : (inBytes s).length = s.inLen := by simp [inBytes]

theorem inBytes_getElem (s : State) (k : Nat) (h : k < (inBytes s).length) : (inBytes s)[k] = inByte s k := by
  simp [inBytes]

/-- The bytes an element can need are one or two of `IN`, none where no input remains (R51). -/
theorem operandBytes_eq (s : State) :
    operandBytes s =
      if s.inLen ≤ s.ip then []
      else if s.inLen - s.ip = 1 then [inByte s s.ip]
      else [inByte s s.ip, inByte s (s.ip + 1)] := by
  unfold operandBytes
  split
  · rename_i h
    have : s.inLen - s.ip = 0 := by omega
    simp [this]
  · split
    · rename_i _ h
      simp [h]
    · have : min 2 (s.inLen - s.ip) = 2 := by omega
      rw [this]
      rfl

end Sys2Proof.Machine
end

