-- ==== Sys2Proof/Laws/Exec.lean ====
section
/-! SUPPORT. Inversion: what each meaning, each plan and each step can answer, said once. -/

namespace Sys2Proof.Machine

/-- An element answers a next state exactly where it is selected. -/
theorem selected_next {p : Prop} [Decidable p] {t u : State} :
    (if p then (.next u : Host.Outcome State Fault Refusal) else .fault .elementNotSelected) = .next t ↔ p ∧ t = u := by
  by_cases h : p
  · rw [if_pos h, Host.Outcome.next.injEq]
    exact ⟨fun e => ⟨h, e.symm⟩, fun e => e.2.symm⟩
  · rw [if_neg h]
    constructor
    · intro e
      cases e
    · intro e
      exact absurd e.1 h

theorem execFlag_next {v : Byte} {s t : State} :
    execFlag v s = .next t ↔ Selects s .flagByte ∧ t = { advanceIp 1 s with flagSr := v, slot := 0 } :=
  selected_next

theorem execLit_next {b : Byte} {s t : State} :
    execLit b s = .next t ↔ Selects s .literal ∧ t = writeByte b (advanceIp 1 s) :=
  selected_next

/-- MATCH is selected like the others and then answers its fault entry or its copy. -/
theorem execMatchTok_eq (len : Nat) (off : WinIx) (s : State) :
    execMatchTok len off s =
      if Selects s .token then
        .next (if s.inLen - s.ip < 2 then raiseError .format s.ip s
          else copyBytes len (loadCopy len off (advanceIp 2 s)))
      else .fault .elementNotSelected := by
  unfold execMatchTok
  by_cases h : s.inLen - s.ip < 2
  · simp only [if_pos h]
  · simp only [if_neg h]

theorem execMatchTok_next {len : Nat} {off : WinIx} {s t : State} :
    execMatchTok len off s = .next t ↔
      Selects s .token ∧
        t = if s.inLen - s.ip < 2 then raiseError .format s.ip s
          else copyBytes len (loadCopy len off (advanceIp 2 s)) := by
  rw [execMatchTok_eq]
  exact selected_next

/-- A command always answers a next state: nothing while BUSY, else its start after its acceptance. -/
theorem command_eq (o : OpCode) (start : State → State) (s : State) :
    command o start s = .next (if s.run = .busy then s else start (accept o s)) := by
  unfold command
  split <;> rfl

/-- The start of ENCODE: the fault on an empty input, or a cleared instance that is busy. -/
theorem beginEncode_cases (s : State) :
    (s.inLen = 0 ∧ beginEncode s = raiseError .emptyInput 0 s) ∨
      (0 < s.inLen ∧ beginEncode s = openBlock { setBusy (clearInstance s) with pos := 0 }) := by
  unfold beginEncode
  split
  · exact .inl ⟨‹_›, rfl⟩
  · exact .inr ⟨by omega, rfl⟩

/-- The three steps of ENCODE. -/
theorem encStep_cases (s : State) :
    (s.slot < Config.slots ∧ s.pos < s.inLen ∧ encStep s = encSlot s) ∨
      (¬ s.slot < Config.slots ∧ s.pos < s.inLen ∧ encStep s = openBlock (encClose s)) ∨
        (¬ s.pos < s.inLen ∧ encStep s = finish (encClose s)) := by
  unfold encStep
  by_cases h1 : s.slot < Config.slots <;> by_cases h2 : s.pos < s.inLen <;> simp [h1, h2]

/-- A slot is a match with the lookup's result, or a literal. -/
theorem encSlot_cases (s : State) :
    (∃ len off, lookup s = some (len, off) ∧ encSlot s = nextSlot (encMatch len off s)) ∨
      (lookup s = none ∧ encSlot s = nextSlot (encLit s)) := by
  unfold encSlot
  cases h : lookup s with
  | none => exact .inr ⟨rfl, rfl⟩
  | some r => exact .inl ⟨r.1, r.2, rfl, rfl⟩

/-- What a step can answer: the plan's transition, or the executed instruction's with what the slot loop adds. -/
theorem step_next {s t : State} :
    step s = .next t ↔
      plan s = .move t ∨ ∃ i u v, plan s = .run i u ∧ exec i u = .next v ∧ t = afterExec i v := by
  unfold step
  cases plan s with
  | move u =>
    simp only [Host.Outcome.next.injEq, Plan.move.injEq, reduceCtorEq, false_and, exists_false, or_false]
  | stuck f => simp only [reduceCtorEq, false_and, exists_false, or_false]
  | refuse r => simp only [reduceCtorEq, false_and, exists_false, or_false]
  | run i u =>
    dsimp only
    refine ⟨fun e => .inr ?_, ?_⟩
    · split at e
      · rename_i v hv
        cases e
        exact ⟨i, u, v, rfl, hv, rfl⟩
      · cases e
      · cases e
    · rintro (h | ⟨i', u', v, h, hv, rfl⟩)
      · cases h
      · cases h
        rw [hv]

/-- The instruction a decoder reads in a context stands in that context. -/
theorem decode_context {c : Context} {l rest : List Byte} {i : Instr} (h : decode c l = .ok i rest) :
    i.context = c := by
  unfold decode at h
  split at h
  · cases h
  · cases h
    unfold decodeCommand
    repeat' split
    all_goals rfl
  · cases h
    rfl
  · cases h
    rfl
  · cases h
  · cases h
    rfl

/-- DECODE's three next steps: the end, an element that its position selects, or a token cut in half. -/
theorem planDecode_cases (s : State) :
    (s.inLen ≤ s.ip ∧ planDecode s = .move (finish s)) ∨
      (s.ip < s.inLen ∧ ∃ i rest, decode (contextAt s) (operandBytes s) = .ok i rest ∧ i.context = contextAt s ∧
        planDecode s = .run i s) ∨
        (s.inLen - s.ip = 1 ∧ contextAt s = .token ∧ planDecode s = .move (raiseError .format s.ip s)) := by
  unfold planDecode
  split
  · exact .inl ⟨‹_›, rfl⟩
  · rename_i h
    have hlt : s.ip < s.inLen := Nat.lt_of_not_le h
    have hb := operandBytes_eq s
    rw [if_neg h] at hb
    cases hd : decode (contextAt s) (operandBytes s) with
    | ok i rest => exact .inr (.inl ⟨hlt, i, rest, rfl, decode_context hd, rfl⟩)
    | noByte =>
      exfalso
      rw [hb] at hd
      split at hd <;> cases hc : contextAt s <;> simp [hc, decode] at hd
    | truncatedToken =>
      refine .inr (.inr ⟨?_, ?_, rfl⟩)
      · rw [hb] at hd
        split at hd
        · assumption
        · cases hc : contextAt s <;> simp [hc, decode] at hd
      · rw [hb] at hd
        split at hd <;> cases hc : contextAt s <;> simp [hc, decode] at hd ⊢

/-- The codec's own step: it waits unless it is BUSY. -/
theorem planCodec_cases (s : State) :
    (s.run ≠ .busy ∧ planCodec s = .move s) ∨
      (s.run = .busy ∧ s.op = .encode ∧ planCodec s = .move (encStep s)) ∨
        (s.run = .busy ∧ s.op = .decode ∧ planCodec s = planDecode s) ∨
          (s.run = .busy ∧ (s.op = .noOp ∨ s.op = .clear) ∧ planCodec s = .stuck .busyWithoutOperation) := by
  unfold planCodec
  cases s.run <;> simp
  cases s.op <;> simp

end Sys2Proof.Machine
end

