-- ==== Sys2Proof/Laws/PerInstr.lean ====
section
/-! SUPPORT. The family made per instruction: how many bytes an instruction's words have (spec opcode_table.json,
`length_bytes`; 30_encoding.md R72 to R74, R88). -/

namespace Sys2Proof.Laws.EncodedLength

/-- The encoder lays down as many bytes as the instruction's row of the opcode table says. -/
def Statement (i : Instr) : Prop := (encode i).length = i.byteLength

theorem flag (v : Byte) : Statement (.flag v) := rfl

theorem lit (b : Byte) : Statement (.lit b) := rfl

theorem matchTok (len : Nat) (off : WinIx) : Statement (.matchTok len off) := rfl

theorem cmdClear : Statement .cmdClear := rfl

theorem cmdEncode : Statement .cmdEncode := rfl

theorem cmdDecode : Statement .cmdDecode := rfl

theorem cmdNone00 : Statement .cmdNone00 := rfl

theorem cmdNone0407 (c : BitVec 2) : Statement (.cmdNone0407 c) := rfl

theorem cmdNone080F (c : BitVec 3) : Statement (.cmdNone080F c) := rfl

theorem cmdNone101F (c : BitVec 4) : Statement (.cmdNone101F c) := rfl

theorem cmdNone203F (c : BitVec 5) : Statement (.cmdNone203F c) := rfl

theorem cmdNone407F (c : BitVec 6) : Statement (.cmdNone407F c) := rfl

theorem cmdNone80FF (c : BitVec 7) : Statement (.cmdNone80FF c) := rfl

end Sys2Proof.Laws.EncodedLength
end

