-- ==== Sys2Proof/Tests/Slice0.lean ====
section
/-! SUPPORT. The model's own tests: words written out from the spec's encodings, one step on a small state per
instruction, and a witness for the hypotheses of every statement. Expected values are those of spec 95_test_vectors.md
and of the rules, worked by hand. -/

namespace Sys2Proof.Tests

open Sys2Proof.Machine

/-- The reset state with `bytes` in `IN`. -/
def loaded (bytes : List Byte) : State :=
  { State.reset with inBuf := (List.range bytes.length).zip bytes, inLen := bytes.length }

/-- A decoder in the middle of the stream `bytes`. -/
def decoding (bytes : List Byte) (ip slot : Nat) (flag : Byte) : State :=
  { loaded bytes with run := .busy, op := .decode, ip := ip, slot := slot, flagSr := flag }

/-- An encoder at the start of the input `bytes`. -/
def encoding (bytes : List Byte) : State := { loaded bytes with run := .busy, op := .encode }

/-- An encoder with parameters `c` that has pushed the first two bytes of its input, both literals of its first block. -/
def encodingTwoWith (c : Config) (b0 b1 : Byte) (rest : List Byte) : State :=
  { pushAll [b0, b1] { encoding (b0 :: b1 :: rest) with cfg := c } with
    pos := 2, slot := 2, flagAcc := 0x03, stage := (Vector.replicate 16 0 |>.setIfInBounds 0 b0 |>.setIfInBounds 1 b1),
    stageLen := 2 }

/-- The same with the spec's default parameters. -/
abbrev encodingTwo (b0 b1 : Byte) (rest : List Byte) : State := encodingTwoWith Config.std b0 b1 rest

/-- The input `bytes` and a pending write of `v` to `CMD`. -/
def commanded (v : Byte) (bytes : List Byte) : State := { loaded bytes with hostIn := [.writeCmd v] }

/-- The state an outcome carries, or the reset state. -/
def stateOf (o : Host.Outcome State Fault Refusal) : State :=
  match o with
  | .next t => t
  | .fault _ => State.reset
  | .refused _ => State.reset

/-- The outcome is a next state. -/
def isNext (o : Host.Outcome State Fault Refusal) : Bool :=
  match o with
  | .next _ => true
  | .fault _ => false
  | .refused _ => false

/-! ### Well-formedness: the one check, at both ends -/

theorem test_wellFormed_refuses_short : ¬ (Instr.matchTok 2 0).WellFormed := by decide
theorem test_wellFormed_refuses_long : ¬ (Instr.matchTok 11 0).WellFormed := by decide
theorem test_wellFormed_accepts_ends : (Instr.matchTok 3 0).WellFormed ∧ (Instr.matchTok 10 8191).WellFormed := by decide

/-! ### Words written out from the encodings (30_encoding.md R72 to R74, R88; vectors V2.1 to V2.3) -/

theorem test_word_flag : decode .flagByte [0b10101111, 0x00] = .ok (.flag 0xAF) [0x00] := by decide
theorem test_word_lit : decode .literal [0b01111111] = .ok (.lit 0x7F) [] := by decide
theorem test_word_match_low_byte_first : decode .token [0x34, 0x92] = .ok (.matchTok 7 0x1234) [] := by decide
theorem test_word_match_ends :
    decode .token [0x00, 0x00] = .ok (.matchTok 3 0) [] ∧ decode .token [0xFF, 0xFF] = .ok (.matchTok 10 8191) [] := by
  decide
theorem test_word_match_fields :
    decode .token [0xFE, 0x3F] = .ok (.matchTok 4 8190) [] ∧ decode .token [0x00, 0x01] = .ok (.matchTok 3 256) [] := by
  decide
theorem test_word_commands :
    decode .command [0b00000001] = .ok .cmdClear [] ∧ decode .command [0b00000010] = .ok .cmdEncode [] ∧
      decode .command [0b00000011] = .ok .cmdDecode [] ∧ decode .command [0b00000000] = .ok .cmdNone00 [] := by
  decide
theorem test_word_no_operation_low :
    decode .command [0b00000111] = .ok (.cmdNone0407 3) [] ∧ decode .command [0b00001001] = .ok (.cmdNone080F 1) [] ∧
      decode .command [0b00010010] = .ok (.cmdNone101F 2) [] := by
  decide
theorem test_word_no_operation_high :
    decode .command [0b00111111] = .ok (.cmdNone203F 31) [] ∧ decode .command [0b01000001] = .ok (.cmdNone407F 1) [] ∧
      decode .command [0b11111111] = .ok (.cmdNone80FF 127) [] := by
  decide
theorem test_word_rejections :
    decode .token [] = .noByte ∧ decode .token [0x05] = .truncatedToken ∧ decode .flagByte [] = .noByte := by decide
theorem test_encode_match : encode (.matchTok 9 1) = [0x01, 0xC0] ∧ encode (.matchTok 5 1) = [0x01, 0x40] := by decide
theorem test_table_words :
    decodeTableWord 16 0x9234 = some (.matchTok 7 0x1234) ∧ decodeTableWord 8 2 = some .cmdEncode := by decide

/-! ### One step on a small state -/

/-- V4.3, PG1 step 1. -/
theorem test_flag_step :
    let t := stateOf (step (decoding [0x0F, 1, 2, 3, 4] 0 0 0))
    t.flagSr = 0x0F ∧ t.ip = 1 ∧ t.slot = 0 := by decide

/-- PG3 step 10: a flag byte after a complete block. -/
theorem test_flag_after_block : (stateOf (step (decoding [0x01, 0x7A, 0x02] 2 8 0x01))).flagSr = 0x02 := by decide

/-- The cursor wraps from 8191 to 0 (R131). -/
theorem test_lit_wraps :
    let t := stateOf (step { decoding [0x01, 0x41] 1 0 0x01 with cur := 8191 })
    t.cur = 0 ∧ winByte t 8191 = 0x41 ∧ t.slot = 1 ∧ t.out = [0x41] := by decide

/-- V4.4: M5@1 at cursor 2, distance 1. -/
theorem test_match_overlap :
    (stateOf (step { decoding [0x03, 0x58, 0x59, 0x01, 0x40] 3 2 0x03 with
      cur := 2, win := [(0, 0x58), (1, 0x59)], out := [0x58, 0x59] })).out =
      [0x58, 0x59, 0x59, 0x59, 0x59, 0x59, 0x59] := by decide

/-- V4.18: M4@8190 at cursor 0 reads cells 8190, 8191, 0, 1. -/
theorem test_match_source_wraps :
    let t := stateOf (exec (.matchTok 4 8190) { decoding [0x00, 0xFE, 0x3F] 1 0 0x00 with
      win := [(8190, 0x50), (8191, 0x51)] })
    t.out = [0x50, 0x51, 0x50, 0x51] ∧ t.cur = 4 ∧ t.ip = 3 := by decide

/-- V4.8: `00 05` faults with `ERR_POS = 1`. -/
theorem test_match_truncated :
    let t := stateOf (step (decoding [0x00, 0x05] 1 0 0x00))
    statusByte t = 0x3B ∧ t.errPos = 1 ∧ t.out = [] ∧ t.slot = 0 := by decide

/-- V4.7: bits 3 to 7 are 1 and no input remains: no error. -/
theorem test_decode_ends : statusByte (stateOf (step (decoding [0xFF, 1, 2, 3] 4 3 0xFF))) = 0x32 := by decide

/-- V5.6: CLEAR after a fault. -/
theorem test_clear :
    let t := stateOf (step { commanded 1 [5] with run := .fault, err := .format, op := .decode, errPos := 3, cur := 9 })
    statusByte t = 0x10 ∧ t.errPos = 0 ∧ t.cur = 0 ∧ t.inLen = 1 := by decide

/-- V5.2: ENCODE of the empty input. -/
theorem test_encode_empty : statusByte (stateOf (step (commanded 2 []))) = 0x27 := by decide
theorem test_encode_starts :
    let t := stateOf (step { commanded 2 [5] with cur := 7, slot := 8, out := [1] })
    statusByte t = 0x21 ∧ t.cur = 0 ∧ t.slot = 0 ∧ t.out = [] := by decide
theorem test_decode_starts :
    let t := stateOf (step { commanded 3 [5] with cur := 7, ip := 4 })
    statusByte t = 0x31 ∧ t.cur = 0 ∧ t.ip = 0 := by decide

/-- V5.7: `CMD <- 0`, 4, 255. -/
theorem test_no_operation :
    (stateOf (step { commanded 0 [5] with op := .clear })) = { loaded [5] with op := .clear } ∧
      (stateOf (step (commanded 4 [5]))) = loaded [5] ∧ (stateOf (step (commanded 255 [5]))) = loaded [5] := by decide
theorem test_no_operation_middle :
    stateOf (exec (.cmdNone080F 1) (loaded [5])) = loaded [5] ∧ stateOf (exec (.cmdNone101F 1) (loaded [5])) = loaded [5] ∧
      stateOf (exec (.cmdNone203F 1) (loaded [5])) = loaded [5] ∧
      stateOf (exec (.cmdNone407F 1) (loaded [5])) = loaded [5] := by decide

/-- R36: a command while BUSY. -/
theorem test_command_while_busy :
    stateOf (step { encoding [5] with hostIn := [.writeCmd 1] }) = encoding [5] := by decide

/-- A table word placed by the host's function runs as the very next step. -/
theorem test_withFetchWord :
    (stateOf (step (State.reset.withFetchWord 16 0xE000))).out = [0, 0, 0, 0, 0, 0, 0, 0, 0, 0] ∧
      statusByte (stateOf (step (State.reset.withFetchWord 8 1))) = 0x10 := by decide

/-! ### The dictionary and the encoder's steps -/

/-- V3.1. -/
theorem test_push :
    let t := pushAll [0x41, 0x42, 0x43] State.reset
    bucket t 0x4241 = [⟨0, 0⟩] ∧ bucket t 0x4342 = [⟨1, 1⟩] ∧ t.cur = 3 ∧ t.cnt = 3 := by decide

/-- Trace E1, slot 2, under `overlap` and under `stop`. -/
theorem test_lookup_run :
    lookup (encodingTwo 0x41 0x41 (List.replicate 18 0x41)) = some (10, 0) ∧
      lookup { encodingTwo 0x41 0x41 (List.replicate 18 0x41) with cfg := ⟨0, .stop, []⟩ } = none := by decide

/-- V3.15: the comparison past the cursor is not with the raw window. -/
theorem test_lookup_past_cursor : lookup (encodingTwo 0x41 0x41 [0x41, 0x41, 0x00, 0x58]) = none := by decide

/-- V3.7: a tie below the greatest length keeps the oldest; V3.8: a strictly longer later candidate wins. -/
theorem test_scan_order :
    let s := { loaded [0x41, 0x42, 0x43, 0x78, 0x41, 0x42, 0x43, 0x44, 0x79, 0x41, 0x42, 0x43, 0x44, 0x7A] with
      pos := 9, cnt := 9, win := [(0, 0x41), (1, 0x42), (2, 0x43), (3, 0x78), (4, 0x41), (5, 0x42), (6, 0x43), (7, 0x44)] }
    scan s 5 [⟨0, 0⟩, ⟨4, 4⟩] (0, 0) = (4, 4) ∧ scan s 3 [⟨0, 0⟩, ⟨4, 4⟩] (0, 0) = (3, 0) := by decide

/-- V3.9 and V3.10: distance `W` is live, `W + 1` is stale. -/
theorem test_stale :
    let s := { loaded [1, 2, 3] with cnt := 8192, win := [(0, 1), (1, 2), (2, 3)] }
    scan s 3 [⟨0, 0⟩] (0, 0) = (3, 0) ∧ scan { s with cnt := 8193 } 3 [⟨0, 0⟩] (0, 0) = (0, 0) := by decide

/-- Trace E1: slot 0 is a literal. -/
theorem test_encoder_literal :
    let t := stateOf (step (encoding [0x41, 0x41, 0x41]))
    t.flagAcc = 0x01 ∧ t.pos = 1 ∧ staged t = [0x41] ∧ t.slot = 1 := by decide

/-- Trace E1: slot 2 is the match (10, 0). -/
theorem test_encoder_match :
    let t := stateOf (step (encodingTwo 0x41 0x41 (List.replicate 18 0x41)))
    t.flagAcc = 0x03 ∧ t.pos = 12 ∧ t.cnt = 12 ∧ staged t = [0x41, 0x41, 0x00, 0xE0] := by decide

/-- R117's example: flag 0x03 and the staged bytes. -/
theorem test_encoder_close :
    let t := stateOf (step { encodingTwo 0x41 0x42 [] with out := [9] })
    t.out = [9, 0x03, 0x41, 0x42] ∧ statusByte t = 0x22 := by decide

/-! ### Witnesses: states and operands that meet the hypotheses of each statement -/

theorem witness_DecodeOfEncodeIsIdentity : (Instr.matchTok 10 8191).WellFormed := by decide
theorem witness_EncodeOfDecodeIsIdentity : decode .token [0xFF, 0x1F, 7] = .ok (.matchTok 3 8191) [7] := by decide
theorem witness_TokenFieldFormulas : 3 ≤ 3 ∧ 3 ≤ 10 ∧ (tokenOf 10 8191).toNat = 65535 := by decide
theorem witness_HashIsInjective :
    Config.std.hash 0x41 0x42 = Config.std.hash 0x41 0x42 ∧ Config.std.hash 0x41 0x42 = 0x4241 ∧
      { Config.std with hashSwaps := [(0x4241, 0), (0, 7)] }.hash 0x41 0x42 = 7 := by
  decide
theorem witness_EveryInjectiveHashIsAParameter (b0 b1 c0 c1 : Byte) (h : b0 ++ b1 = c0 ++ c1) : b0 = c0 ∧ b1 = c1 := by
  have hn := congrArg BitVec.toNat h
  rw [BitVec.toNat_append, BitVec.toNat_append, ← Nat.shiftLeft_add_eq_or_of_lt b1.isLt,
    ← Nat.shiftLeft_add_eq_or_of_lt c1.isLt, Nat.shiftLeft_eq, Nat.shiftLeft_eq] at hn
  constructor <;> bv_omega
theorem witness_ParametersNeverChange : isNext (step (commanded 3 [5])) = true := by decide
theorem witness_CommandWhileBusyHasNoEffect :
    let s := { encoding [5] with hostIn := [.writeCmd 1] }
    s.run = .busy ∧ Instr.cmdClear.context = .command ∧ s.hostIn = .writeCmd 1 :: [] := by decide
theorem witness_OtherCommandCodesChangeNothing : 4 ≤ (4 : Byte).toNat ∧ 4 ≤ (255 : Byte).toNat := by decide
theorem witness_ClearCommandClearsTheInstance : (loaded [5]).run ≠ .busy := by decide
theorem witness_EncodeCommandStarts : (loaded [5]).run ≠ .busy ∧ 0 < (loaded [5]).inLen := by decide
theorem witness_DecodeCommandStarts : { loaded [5] with run := .fault }.run ≠ .busy := by decide
theorem witness_EncodeOfEmptyInputFaults : State.reset.run ≠ .busy ∧ State.reset.inLen = 0 := by decide
theorem witness_FaultIsSticky :
    let s := { loaded [5] with run := .fault, err := .format }
    s.run = .fault ∧ isNext (step s) = true := by decide
theorem witness_FaultIsSticky_restart :
    let s := { commanded 3 [5] with run := .fault, err := .format }
    s.run = .fault ∧ isNext (step s) = true ∧ (stateOf (step s)).run = .busy := by decide
theorem witness_ResultStaysUntilNextCommand :
    let s := { loaded [5] with run := .done, op := .decode, out := [5] }
    s.run = .done ∧ isNext (step s) = true ∧ readOut s 0 = some 5 := by decide
theorem witness_IdleInstanceKeepsItsState :
    State.reset.run ≠ .busy ∧ State.reset.hostIn = [] ∧
      { loaded [5] with hostIn := [.await] }.hostIn = HostEvent.await :: [] := by decide
theorem witness_HostWritesItsInput :
    let s := { loaded [5] with hostIn := [.writeIn 1 6] }
    s.run ≠ .busy ∧ s.hostIn = .writeIn 1 6 :: [] ∧ inByte (stateOf (step s)) 1 = 6 := by decide
theorem witness_HostWritesItsInput_length :
    let s := { loaded [5] with hostIn := [.writeInLen 0] }
    s.run ≠ .busy ∧ s.hostIn = .writeInLen 0 :: [] ∧ (stateOf (step s)).inLen = 0 := by decide
theorem witness_InputChangeWhileBusyIsRefused :
    let s := { encoding [5] with hostIn := [.writeInLen 0] }
    s.run = .busy ∧ s.hostIn = .writeInLen 0 :: [] ∧ isNext (step s) = false := by decide
theorem witness_HardwareResetValues :
    let s := { encoding [5] with hostIn := [.hardReset] }
    s.hostIn = .hardReset :: [] ∧ stateOf (step s) = State.reset := by decide
theorem witness_FlagResultAndFrame :
    Selects (decoding [0x0F] 0 0 0) .flagByte ∧ (decoding [0x0F] 0 0 0).hostIn = [] := by decide
theorem witness_FlagResultAndFrame_next_block : Selects (decoding [0x01, 0x7A, 0x02] 2 8 0x01) .flagByte := by decide
theorem witness_LitResultAndFrame : Selects (decoding [0x80, 0x41] 1 7 0x80) .literal := by decide
theorem witness_MatchResultAndFrame :
    Selects (decoding [0x00, 0x00, 0xE0] 1 0 0) .token ∧ 2 ≤ (decoding [0x00, 0x00, 0xE0] 1 0 0).inLen - 1 ∧
      (Instr.matchTok 10 0).WellFormed := by decide

/-- The clause of the repeated pattern, at distance 1, and the other one, at distance 0. -/
theorem witness_MatchRepeatsOverlap :
    Selects { decoding [0x01, 0x41, 0x00, 0xE0] 2 1 0x01 with cur := 1 } .token ∧ ((1 : WinIx) - 0).toNat = 1 ∧
      Selects (decoding [0x00, 0x00, 0xE0] 1 0 0) .token ∧ ((0 : WinIx) - 0).toNat = 0 := by decide
theorem witness_MatchWithOneByteLeftFaults :
    let s := decoding [0x00, 0x05] 1 0 0
    Selects s .token ∧ s.inLen - s.ip = 1 ∧ s.hostIn = [] := by decide
theorem witness_ElementOutOfPlaceStops :
    (Instr.lit 5).context ≠ .command ∧ ¬ Selects (decoding [0x00, 0x05] 1 0 0) (Instr.lit 5).context := by decide
theorem witness_StepRunsTheDecodedInstruction :
    let s := decoding [0x00, 0x34, 0x92] 1 0 0
    s.hostIn = [] ∧ Selects s .token ∧ decode .token (operandBytes s) = .ok (.matchTok 7 0x1234) [] := by decide
theorem witness_StepRunsTheDecodedInstruction_command :
    (commanded 2 [5]).hostIn = .writeCmd 2 :: [] ∧ decode .command [2] = .ok .cmdEncode [] := by decide
theorem witness_DecodeEndsWhereInputEnds :
    let s := decoding [0x55] 1 0 0x55
    s.Running .decode ∧ s.inLen ≤ s.ip := by decide
theorem witness_OperationsKeepTheirOwnRegisters :
    isNext (step (decoding [0x01, 0x41] 1 0 0x01)) = true ∧ (decoding [0x01, 0x41] 1 0 0x01).Running .decode ∧
      isNext (step (encoding [5])) = true ∧ (encoding [5]).Running .encode := by decide
theorem witness_OutputOnlyGrows :
    let s := decoding [0x01, 0x41] 1 0 0x01
    s.run = .busy ∧ s.hostIn = [] ∧ isNext (step s) = true := by decide
theorem witness_LookupEarlyExits :
    (encoding [1, 2]).cnt < 2 ∧ (encodingTwo 1 2 [1]).inLen - (encodingTwo 1 2 [1]).pos < 2 ∧
      bucket (encodingTwo 1 2 [3, 4]) (Config.std.hash 3 4) = [] := by decide
theorem witness_LookupLengthBounds : lookup (encodingTwo 0x41 0x41 [0x41, 0x41, 0x41]) = some (3, 0) := by decide
theorem witness_LookupUsesOneOfTheNewestLive :
    lookup (encodingTwo 0x41 0x41 (List.replicate 12 0x41)) = some (10, 0) := by decide
theorem witness_EncoderEmitsALiteral :
    let s := encoding [5]
    s.Running .encode ∧ s.slot < 8 ∧ s.pos < s.inLen ∧ s.stageLen < 16 ∧ lookup s = none := by decide
theorem witness_EncoderEmitsAMatch :
    let s := encodingTwo 0x41 0x41 [0x41, 0x41, 0x41]
    s.Running .encode ∧ s.slot < 8 ∧ s.pos < s.inLen ∧ s.stageLen < 15 ∧ lookup s = some (3, 0) := by decide

/-- A full block with input left, and the end of the input in the middle of a block. -/
theorem witness_EncoderClosesABlock :
    let s := { encodingTwo 1 2 [3] with slot := 8 }
    s.Running .encode ∧ 8 ≤ s.slot ∧ s.pos < s.inLen ∧ (encodingTwo 1 2 []).Running .encode ∧
      (encodingTwo 1 2 []).inLen ≤ (encodingTwo 1 2 []).pos := by decide

/-- A decoder that has decoded one byte, with the window that it then has. -/
def decodedOne : State := { decoding [0x01, 0x41, 0x02] 2 1 0x01 with win := [(0, 0x41)], cur := 1, out := [0x41] }

theorem witness_WindowHoldsTheLastBytes : decodedOne.WindowHolds where
  curOut := by decide
  window i := by
    by_cases h : i = 0
    · subst h
      decide
    · have h0 : ¬ i.toNat < 1 := fun hlt => h (BitVec.eq_of_toNat_eq (by simp only [BitVec.ofNat_eq_ofNat, BitVec.toNat_ofNat]; omega))
      have h1 : ¬ 0 = i.toNat := by omega
      simp [winByte, historyByte, decodedOne, decoding, loaded, Memory.read, Table.get, h0, h1, State.reset, Config.std]

theorem witness_EveryStepKeepsTheDecodedWindow :
    isNext (step decodedOne) = true ∧ (stateOf (step decodedOne)).op = .decode := by decide

/-- An encoder that has pushed two equal bytes, and lists them under their hash, holds them as its dictionary. -/
theorem dictionaryHolds_two (c : Config) (v : Hash) (hv : c.hash 0x41 0x41 = v)
    (hwin : ∀ q < 2, winByte (encodingTwoWith c 0x41 0x41 [0x41, 0x41, 0x41]) (BitVec.ofNat 13 q) =
      inByte (encodingTwoWith c 0x41 0x41 [0x41, 0x41, 0x41]) q)
    (hidx : (encodingTwoWith c 0x41 0x41 [0x41, 0x41, 0x41]).idx = [(v.toNat, [⟨0, 0⟩])]) :
    (encodingTwoWith c 0x41 0x41 [0x41, 0x41, 0x41]).DictionaryHolds where
  posCnt := rfl
  curPos := rfl
  window q h _ := hwin q h
  buckets k := by
    have hf : refBucket c (inByte (encodingTwoWith c 0x41 0x41 [0x41, 0x41, 0x41])) 2 k =
        newest 32 ((([0] : List Nat).filter fun _ => c.hash 0x41 0x41 == k).map fun a =>
          { widx := BitVec.ofNat 13 a, abs := a }) := rfl
    change _ = refBucket c (inByte (encodingTwoWith c 0x41 0x41 [0x41, 0x41, 0x41])) 2 k
    rw [hf, hv, bucket, hidx]
    by_cases h : v = k
    · subst h
      simp [Table.get, newest]
    · have h1 : ¬ v.toNat = k.toNat := fun e => h (BitVec.eq_of_toNat_eq e)
      simp [Table.get, newest, h, h1]

theorem witness_DictionaryHolds : (encodingTwo 0x41 0x41 [0x41, 0x41, 0x41]).DictionaryHolds :=
  dictionaryHolds_two Config.std 0x4141 (by decide) (by decide) (by decide)

/-- Two dictionaries of the same input under two values of HASH, which name the bucket differently. -/
theorem witness_HashChoiceIsNotObservable :
    let s := encodingTwo 0x41 0x41 [0x41, 0x41, 0x41]
    let t := encodingTwoWith ⟨0, .overlap, [(0x4141, 7)]⟩ 0x41 0x41 [0x41, 0x41, 0x41]
    s.DictionaryHolds ∧ t.DictionaryHolds ∧ inBytes s = inBytes t ∧ s.pos = t.pos ∧ s.cfg.cmpPolicy = t.cfg.cmpPolicy ∧
      bucket s 0x4141 = [⟨0, 0⟩] ∧ bucket t 7 = [⟨0, 0⟩] ∧ lookup s = some (3, 0) :=
  ⟨witness_DictionaryHolds, dictionaryHolds_two _ 7 (by decide) (by decide) (by decide), by decide, rfl, rfl, by decide, by decide, by decide⟩

theorem witness_EveryStepKeepsTheDictionary :
    let t := stateOf (step (encodingTwo 0x41 0x41 [0x41, 0x41, 0x41]))
    t.run = .busy ∧ t.op = .encode ∧ isNext (step (encodingTwo 0x41 0x41 [0x41, 0x41, 0x41])) = true := by decide
theorem witness_LookupIsItsAbstractForm :
    (encodingTwo 0x41 0x41 [0x41, 0x41, 0x41]).pos < (encodingTwo 0x41 0x41 [0x41, 0x41, 0x41]).inLen := by decide

/-- A decoder with the dictionary's window and cursor is the dictionary's own state. -/
theorem witness_LookupIsSound :
    let s := encodingTwo 0x41 0x41 [0x41, 0x41, 0x41]
    s.pos < s.inLen ∧ lookup s = some (3, 0) ∧ (∀ i, winByte s i = winByte s i) ∧ s.cur = s.cur :=
  ⟨by decide, by decide, fun _ => rfl, rfl⟩

/-- The decoder in the middle of a stream meets the invariants. -/
theorem witness_SoundStatesNeverStop : decodedOne.Inv where
  winWf := by decide
  winRange := by decide
  inWf := by decide
  idxSorted := by decide
  idxBuckets := by decide
  candidates := by decide
  bucketsRise := by decide
  slotBound := by decide
  stageBound := by decide
  stageSlots := by decide
  inLenBound := by decide
  remZero := by decide
  ipBound := by decide
  posBound := by decide
  errFault := by decide
  errPosZero := by decide
  opRunning := by decide
  opIdle := by decide
  curEncode := by decide
  curDecode := by decide
  decodeUnindexed := by decide

theorem witness_EveryStepKeepsTheInvariants : decodedOne.Inv ∧ isNext (step decodedOne) = true :=
  ⟨witness_SoundStatesNeverStop, by decide⟩

theorem witness_EncodeEndsDone : (commanded 2 [0x7F]).Commanded 2 ∧ 0 < (commanded 2 [0x7F]).inLen := by decide

/-- V3.4(a): ENCODE of `7F` gives `01 7F`, in a command, a slot and a close. -/
theorem witness_EncodeOutputSize :
    (commanded 2 [0x7F]).Commanded 2 ∧ 0 < (commanded 2 [0x7F]).inLen ∧
      ∃ t, (commanded 2 [0x7F]).EndsAt t ∧ t.out = [0x01, 0x7F] :=
  ⟨by decide, by decide, _, ⟨3, 2, by decide, rfl, by decide⟩, by decide⟩

/-- The same input after another history. -/
theorem witness_EncodeIsAFunctionOfItsInput :
    let s := { commanded 2 [0x7F] with cur := 5, run := .fault, cfg := ⟨0xFF, .overlap, [(0x4241, 0)]⟩ }
    s.Commanded 2 ∧ inBytes s = inBytes (commanded 2 [0x7F]) ∧ s.cfg.cmpPolicy = (commanded 2 [0x7F]).cfg.cmpPolicy ∧
      ∃ t, s.EndsAt t ∧ t.run = .done :=
  ⟨by decide, by decide, rfl, _, ⟨3, 2, by decide, rfl, by decide⟩, by decide⟩

/-- V3.4(b): two bytes, so that the clause about the second slot is met. -/
theorem witness_EncodeBeginsWithLiterals :
    (commanded 2 [0x10, 0x10]).Commanded 2 ∧ 2 ≤ (commanded 2 [0x10, 0x10]).inLen ∧
      ∃ t, (commanded 2 [0x10, 0x10]).EndsAt t ∧ t.out = [0x03, 0x10, 0x10] :=
  ⟨by decide, by decide, _, ⟨4, 3, by decide, rfl, by decide⟩, by decide⟩

/-- The empty input, and five equal bytes, whose parse is two literals and the match (3, 0) (R103, R110): flag byte 0x03,
the literals, the token 0x0000. -/
theorem witness_EncodeIsItsGreedyParse :
    ((commanded 2 []).Commanded 2 ∧ ∃ t, (commanded 2 []).EndsAt t ∧ t.run = .fault) ∧
      let s := commanded 2 [0x41, 0x41, 0x41, 0x41, 0x41]
      s.Commanded 2 ∧ ∃ t, s.EndsAt t ∧ t.out = [0x03, 0x41, 0x41, 0x00, 0x00] :=
  ⟨⟨by decide, _, ⟨1, 0, by decide, rfl, by decide⟩, by decide⟩, by decide, _, ⟨5, 4, by decide, rfl, by decide⟩,
    by decide⟩

theorem witness_DecodeIsItsStreamFunction : (commanded 3 [0x55]).Commanded 3 := by decide

/-- V4.6 and V4.1: a stream of one byte, and the empty stream. -/
theorem witness_DecodeOutputSize :
    (∃ t, (commanded 3 [0x55]).EndsAt t ∧ t.run = .done) ∧ ∃ t, (commanded 3 []).EndsAt t ∧ t.run = .done :=
  ⟨⟨_, ⟨3, 2, by decide, rfl, by decide⟩, by decide⟩, _, ⟨2, 1, by decide, rfl, by decide⟩, by decide⟩

/-- A stream that is the encoder's output (R122). -/
theorem witness_DecodeOfEncodeReturnsTheInput :
    (commanded 3 [0x01, 0x7F]).Commanded 3 ∧ inBytes (commanded 3 [0x01, 0x7F]) = [0x01, 0x7F] := by decide

theorem witness_SlotsDecodeElementByElement : ∀ e ∈ [Instr.lit 0x41, .matchTok 10 0], IsElement e := by
  simp [IsElement, Instr.WellFormed, Config.minLen, Config.maxLen]

/-- V2.3's flag byte 0x6F, built by `BLOCK` from its elements (trace E3), and the elements' own kind. -/
theorem witness_SlotsExpandToAWellFormedListing :
    let els : List Instr := [.lit 0x41, .lit 0x42, .lit 0x43, .lit 0x78, .matchTok 3 0, .lit 0x44, .lit 0x79, .matchTok 4 4]
    (∀ e ∈ els, IsElement e) ∧ blockFlag els 0 = 0x6F := by
  refine ⟨?_, by decide⟩
  simp [IsElement, Instr.WellFormed, Config.minLen, Config.maxLen]

/-- `FF 01 02 03` and `55` are streams of the grammar (R82(a), (b)); `00 05` is not (V4.8). -/
theorem witness_GrammarIsWhatDecodes :
    decodeStream 0 [0xFF, 1, 2, 3] = .done [1, 2, 3] ∧ decodeStream 0 [0x55] = .done [] ∧
      decodeStream 0 [0x00, 0x05] = .formatError [] := by decide

end Sys2Proof.Tests
end

section
/-! PROOFS. The parameter HASH (spec 00_scope.md R8, 40_dictionary.md R95): the default is a bijection between pairs of
bytes and hash values, and the lists of exchanges give every permutation of the hash values. -/

namespace Sys2Proof.Machine

/-- R95: the default HASH as a number. -/
theorem packPrefix_toNat (b0 b1 : Byte) : (packPrefix b0 b1).toNat = b0.toNat + 256 * b1.toNat := by
  have hlow : (b0.setWidth 16).toNat = b0.toNat := BitVec.toNat_setWidth_of_le (by decide)
  have hhigh : (b1.setWidth 16 <<< 8).toNat = b1.toNat <<< 8 := by
    rw [BitVec.toNat_shiftLeft, BitVec.toNat_setWidth_of_le (by decide), Nat.shiftLeft_eq]
    omega
  rw [packPrefix, BitVec.toNat_or, hlow, hhigh, Nat.lor_comm, ← Nat.shiftLeft_add_eq_or_of_lt b0.isLt, Nat.shiftLeft_eq]
  omega

theorem packPrefix_injective {b0 b1 c0 c1 : Byte} (h : packPrefix b0 b1 = packPrefix c0 c1) : b0 = c0 ∧ b1 = c1 := by
  have hn := congrArg BitVec.toNat h
  rw [packPrefix_toNat, packPrefix_toNat] at hn
  constructor <;> bv_omega

/-- Every hash value packs its own low and high byte. -/
theorem packPrefix_low_high (h : Hash) : packPrefix (h.setWidth 8) ((h >>> 8).setWidth 8) = h := by
  apply BitVec.eq_of_toNat_eq
  rw [packPrefix_toNat, BitVec.toNat_setWidth, BitVec.toNat_setWidth, BitVec.toNat_ushiftRight,
    Nat.shiftRight_eq_div_pow]
  have := h.isLt
  omega

/-- An exchange is the library's transposition. -/
theorem swapHash_eq_swap (h a b : Hash) : swapHash h (a, b) = Equiv.swap a b h := rfl

/-- Every permutation of the hash values is a list of exchanges, carried out in order. -/
theorem exists_swaps_of_perm (σ : Equiv.Perm Hash) :
    ∃ swaps : List (Hash × Hash), ∀ h, swaps.foldl swapHash h = σ h := by
  induction σ using Equiv.Perm.swap_induction_on with
  | one => exact ⟨[], fun h => rfl⟩
  | swap_mul σ a b _ ih =>
    obtain ⟨swaps, hswaps⟩ := ih
    refine ⟨swaps ++ [(a, b)], fun h => ?_⟩
    rw [List.foldl_append, hswaps, List.foldl_cons, List.foldl_nil, swapHash_eq_swap, Equiv.Perm.mul_apply]

/-- An injective function of two bytes is the default HASH followed by a permutation of the hash values. -/
theorem exists_perm_of_injective {f : Byte → Byte → Hash} (hf : ∀ b0 b1 c0 c1, f b0 b1 = f c0 c1 → b0 = c0 ∧ b1 = c1) :
    ∃ σ : Equiv.Perm Hash, ∀ b0 b1, σ (packPrefix b0 b1) = f b0 b1 := by
  have hinj : Function.Injective fun h : Hash => f (h.setWidth 8) ((h >>> 8).setWidth 8) := by
    intro g h hgh
    obtain ⟨hlow, hhigh⟩ := hf _ _ _ _ hgh
    rw [← packPrefix_low_high g, ← packPrefix_low_high h, hlow, hhigh]
  refine ⟨Equiv.ofBijective _ (Finite.injective_iff_bijective.mp hinj), fun b0 b1 => ?_⟩
  obtain ⟨hlow, hhigh⟩ := packPrefix_injective (packPrefix_low_high (packPrefix b0 b1))
  exact congrArg₂ f hlow hhigh

/-- Settles O8: the default packs its two bytes, and an injective HASH is the default followed by a permutation, which is a
list of exchanges. -/
theorem everyInjectiveHashIsAParameter : Obligations.EveryInjectiveHashIsAParameter := by
  refine ⟨fun b0 b1 => ?_, fun f hf => ?_⟩
  · rw [hash_of_no_swaps rfl, packPrefix_toNat]
  · obtain ⟨σ, hσ⟩ := exists_perm_of_injective hf
    obtain ⟨swaps, hswaps⟩ := exists_swaps_of_perm σ
    exact ⟨swaps, fun c b0 b1 => (hswaps _).trans (hσ b0 b1)⟩

end Sys2Proof.Machine
end

section
/-! PROOFS. Progress: which plans a step carries out, and that the plan of a sound state is one of them unless the host
breaks its duty (spec 00_scope.md R13, 70_reset_and_hazards.md R199; log entry 14). -/

namespace Sys2Proof.Machine

/-- A plan that a step carries out: a transition, a command, or an element that the decoder's position selects. -/
def Plan.Proceeds : Plan → Prop
  | .move _ => True
  | .run i t => i.context = .command ∨ Selects t i.context
  | .stuck _ => False
  | .refuse _ => False

/-- A command always answers a next state (R145, R149, R150). -/
theorem exec_next_of_command {i : Instr} (hi : i.context = .command) (s : State) : ∃ t, exec i s = .next t := by
  cases i with
  | flag v => cases hi
  | lit b => cases hi
  | matchTok len off => cases hi
  | cmdClear => exact ⟨_, command_eq .clear (fun t => { clearInstance t with run := .idle }) s⟩
  | cmdEncode => exact ⟨_, command_eq .encode _ s⟩
  | cmdDecode => exact ⟨_, command_eq .decode _ s⟩
  | cmdNone00 => exact ⟨s, rfl⟩
  | cmdNone0407 c => exact ⟨s, rfl⟩
  | cmdNone080F c => exact ⟨s, rfl⟩
  | cmdNone101F c => exact ⟨s, rfl⟩
  | cmdNone203F c => exact ⟨s, rfl⟩
  | cmdNone407F c => exact ⟨s, rfl⟩
  | cmdNone80FF c => exact ⟨s, rfl⟩

/-- A stream element answers a next state where it is selected (R127, R129, R130). -/
theorem exec_next_of_selects {i : Instr} {s : State} (hi : i.context ≠ .command) (hs : Selects s i.context) :
    ∃ t, exec i s = .next t := by
  cases i with
  | flag v => exact ⟨_, execFlag_next.mpr ⟨hs, rfl⟩⟩
  | lit b => exact ⟨_, execLit_next.mpr ⟨hs, rfl⟩⟩
  | matchTok len off => exact ⟨_, execMatchTok_next.mpr ⟨hs, rfl⟩⟩
  | _ => exact absurd rfl hi

theorem step_next_of_proceeds {s : State} (h : (plan s).Proceeds) : ∃ t, step s = .next t := by
  cases hp : plan s with
  | move t => exact ⟨t, step_next.mpr (.inl hp)⟩
  | run i u =>
    rw [hp] at h
    obtain ⟨v, hv⟩ : ∃ v, exec i u = .next v := by
      by_cases hi : i.context = .command
      · exact exec_next_of_command hi u
      · exact exec_next_of_selects hi (h.resolve_left hi)
    exact ⟨_, step_next.mpr (.inr ⟨i, u, v, hp, hv, rfl⟩)⟩
  | stuck f => rw [hp] at h; exact h.elim
  | refuse r => rw [hp] at h; exact h.elim

theorem step_refused_of_plan {s : State} {r : Refusal} (h : plan s = .refuse r) : step s = .refused r := by
  rw [step, h]

/-- While DECODE runs its next step ends it, faults, or runs an element that is selected. -/
theorem planDecode_proceeds {s : State} (hrun : s.run = .busy) (hop : s.op = .decode) : (planDecode s).Proceeds := by
  rcases planDecode_cases s with ⟨-, hp⟩ | ⟨hip, i, rest, -, hi, hp⟩ | ⟨-, -, hp⟩
  · rw [hp]; trivial
  · rw [hp]; exact .inr ⟨hrun, hop, hip, hi.symm⟩
  · rw [hp]; trivial

/-- The codec's own step is stuck only where a BUSY state names no operation. -/
theorem planCodec_proceeds {s : State} (hop : s.run = .busy → s.op = .encode ∨ s.op = .decode) :
    (planCodec s).Proceeds := by
  rcases planCodec_cases s with ⟨-, hp⟩ | ⟨-, -, hp⟩ | ⟨hrun, hdec, hp⟩ | ⟨hrun, hno, -⟩
  · rw [hp]; trivial
  · rw [hp]; trivial
  · rw [hp]; exact planDecode_proceeds hrun hdec
  · rcases hop hrun with h | h <;> simp [h] at hno

theorem planInput_cases (s t : State) :
    (s.run ≠ .busy ∧ planInput s t = .move t) ∨ (s.run = .busy ∧ planInput s t = .refuse .inputChangedWhileBusy) := by
  unfold planInput
  split
  · exact .inr ⟨‹_›, rfl⟩
  · exact .inl ⟨‹_›, rfl⟩

/-- The host's accesses that change the codec's input. -/
abbrev HostEvent.ChangesInput (e : HostEvent) : Prop := (∃ a b, e = .writeIn a b) ∨ ∃ n, e = .writeInLen n

/-- A host access that changes no input is carried out. -/
theorem planHost_proceeds {e : HostEvent} {s : State} (hop : s.run = .busy → s.op = .encode ∨ s.op = .decode)
    (he : ¬ e.ChangesInput) : (planHost e s).Proceeds := by
  cases e with
  | writeIn a b => exact absurd (.inl ⟨a, b, rfl⟩) he
  | writeInLen n => exact absurd (.inr ⟨n, rfl⟩) he
  | writeCmd v => exact .inl (decode_context (c := .command) (l := [v]) rfl)
  | pass => exact planCodec_proceeds hop
  | await =>
    rw [planHost]
    split
    · exact planCodec_proceeds hop
    · trivial
  | hardReset => trivial

/-- A host access that changes the input is carried out, or refused because the codec is BUSY. -/
theorem planHost_changesInput {e : HostEvent} (he : e.ChangesInput) (s : State) :
    (planHost e s).Proceeds ∨ (s.run = .busy ∧ planHost e s = .refuse .inputChangedWhileBusy) := by
  obtain ⟨t, ht⟩ : ∃ t, planHost e s = planInput s t := by
    rcases he with ⟨a, b, rfl⟩ | ⟨n, rfl⟩
    · exact ⟨_, rfl⟩
    · exact ⟨_, rfl⟩
  rw [ht]
  rcases planInput_cases s t with ⟨-, hp⟩ | hp
  · rw [hp]; exact .inl trivial
  · exact .inr hp

/-- Settles O35: a sound BUSY state names its operation, so the plan proceeds unless the host changes the input. -/
theorem soundStatesNeverStop : Obligations.SoundStatesNeverStop := by
  intro s hinv
  have hop : s.run = .busy → s.op = .encode ∨ s.op = .decode := fun h => hinv.opRunning (by simp [h])
  cases hin : s.hostIn with
  | nil =>
    refine .inl (step_next_of_proceeds ?_)
    rw [plan, hin]
    exact planCodec_proceeds hop
  | cons e rest =>
    have hplan : plan s = planHost e { s with hostIn := rest } := by rw [plan, hin]
    by_cases he : e.ChangesInput
    · rcases planHost_changesInput he { s with hostIn := rest } with hp | ⟨hrun, hp⟩
      · exact .inl (step_next_of_proceeds (hplan ▸ hp))
      · exact .inr ⟨step_refused_of_plan (hplan.trans hp), hrun, e, rest, rfl, he⟩
    · exact .inl (step_next_of_proceeds (hplan ▸ planHost_proceeds hop he))

end Sys2Proof.Machine
end

section
/-! PROOFS. What a step can do, said once with its guards: a step of the codec (spec 41_encoder.md R110, 42_decoder.md
R125, 70_reset_and_hazards.md R174) or an access of the host (43_host_commands.md R145 to R150, R185, R187). -/

namespace Sys2Proof.Machine

/-- What the codec's own step does in `s`. -/
inductive CodecStep (s : State) : State → Prop where
  | wait : s.run ≠ .busy → CodecStep s s
  | encode : s.run = .busy → s.op = .encode → CodecStep s (encStep s)
  | decodeEnd : s.run = .busy → s.op = .decode → s.inLen ≤ s.ip → CodecStep s (finish s)
  | flag : Selects s .flagByte → CodecStep s { advanceIp 1 s with flagSr := inByte s s.ip, slot := 0 }
  | lit : Selects s .literal → CodecStep s (nextSlot (writeByte (inByte s s.ip) (advanceIp 1 s)))
  | matchTok (token : Token) : Selects s .token → token = tokenOfBytes (inByte s s.ip) (inByte s (s.ip + 1)) →
      2 ≤ s.inLen - s.ip →
      CodecStep s (nextSlot (copyBytes (tokenLen token) (loadCopy (tokenLen token) (tokenOff token) (advanceIp 2 s))))
  | cutToken : Selects s .token → s.inLen - s.ip = 1 → CodecStep s (raiseError .format s.ip s)

/-- What the host's access does in `s`, from which it has been taken away. `pass` and `await` are steps of the codec. -/
inductive HostAccess (s : State) : HostEvent → State → Prop where
  | writeIn (a : BitVec 64) (b : Byte) : s.run ≠ .busy → HostAccess s (.writeIn a b) (setIn a.toNat b s)
  | writeInLen (n : BitVec 64) : s.run ≠ .busy → HostAccess s (.writeInLen n) { s with inLen := n.toNat }
  | ignored (v : Byte) : s.run = .busy ∨ (v ≠ 1 ∧ v ≠ 2 ∧ v ≠ 3) → HostAccess s (.writeCmd v) s
  | clear : s.run ≠ .busy → HostAccess s (.writeCmd 1) { clearInstance (accept .clear s) with run := .idle }
  | encode : s.run ≠ .busy → HostAccess s (.writeCmd 2) (beginEncode (accept .encode s))
  | decode : s.run ≠ .busy → HostAccess s (.writeCmd 3) (beginDecode (accept .decode s))
  | hardReset : HostAccess s .hardReset (hardReset s)

/-- The next states of a plan. -/
def Plan.Yields : Plan → State → Prop
  | .move u, t => t = u
  | .run i u, t => ∃ v, exec i u = .next v ∧ t = afterExec i v
  | .stuck _, _ => False
  | .refuse _, _ => False

theorem step_next_iff_yields {s t : State} : step s = .next t ↔ (plan s).Yields t := by
  rw [step_next]
  cases plan s with
  | move u => simp [Plan.Yields, eq_comm]
  | run i u => simp [Plan.Yields]
  | stuck f => simp [Plan.Yields]
  | refuse r => simp [Plan.Yields]

theorem plan_of_hostIn_nil {s : State} (h : s.hostIn = []) : plan s = planCodec s := by rw [plan, h]

theorem plan_of_hostIn_cons {s : State} {e : HostEvent} {rest : List HostEvent} (h : s.hostIn = e :: rest) :
    plan s = planHost e { s with hostIn := rest } := by rw [plan, h]

theorem step_of_plan_move {s t : State} (h : plan s = .move t) : step s = .next t := step_next.mpr (.inl h)

/-- The position never selects a command (R75). -/
theorem contextAt_ne_command (s : State) : contextAt s ≠ .command := by
  unfold contextAt
  split_ifs <;> simp

/-- A selected element, executed with what the slot loop adds. -/
theorem codecStep_of_element {s t : State} {i : Instr} {rest : List Byte} (hsel : Selects s (contextAt s))
    (hd : decode (contextAt s) (operandBytes s) = .ok i rest) (ht : (Plan.run i s).Yields t) : CodecStep s t := by
  obtain ⟨hrun, -, hip, -⟩ := hsel
  obtain ⟨v, hv, rfl⟩ := ht
  rw [operandBytes_eq, if_neg (by omega)] at hd
  cases hc : contextAt s with
  | command => exact absurd hc (contextAt_ne_command s)
  | flagByte =>
    obtain rfl : i = .flag (inByte s s.ip) := by
      rw [hc] at hd
      split at hd <;> cases hd <;> rfl
    obtain ⟨hs, rfl⟩ := execFlag_next.mp hv
    exact .flag hs
  | literal =>
    obtain rfl : i = .lit (inByte s s.ip) := by
      rw [hc] at hd
      split at hd <;> cases hd <;> rfl
    obtain ⟨hs, rfl⟩ := execLit_next.mp hv
    rw [afterExec, if_pos (by simpa using hrun)]
    exact .lit hs
  | token =>
    rw [hc] at hd
    split at hd
    · cases hd
    · cases hd
      obtain ⟨hs, rfl⟩ := execMatchTok_next.mp hv
      rw [if_neg (by omega), afterExec, if_pos (by simpa using hrun)]
      exact .matchTok _ hs rfl (by omega)

theorem planCodec_yields {s t : State} (h : (planCodec s).Yields t) : CodecStep s t := by
  rcases planCodec_cases s with ⟨hrun, hp⟩ | ⟨hrun, hop, hp⟩ | ⟨hrun, hop, hp⟩ | ⟨-, -, hp⟩ <;> rw [hp] at h
  · cases h
    exact .wait hrun
  · cases h
    exact .encode hrun hop
  · rcases planDecode_cases s with ⟨hip, hp⟩ | ⟨hip, i, rest, hd, -, hp⟩ | ⟨hip, hc, hp⟩ <;> rw [hp] at h
    · cases h
      exact .decodeEnd hrun hop hip
    · exact codecStep_of_element ⟨hrun, hop, hip, rfl⟩ hd h
    · cases h
      exact .cutToken ⟨hrun, hop, by omega, hc⟩ hip
  · exact h.elim

/-- Without a pending host access a step is the codec's own. -/
theorem codecStep_of_step {s t : State} (hin : s.hostIn = []) (h : step s = .next t) : CodecStep s t := by
  rw [step_next_iff_yields, plan_of_hostIn_nil hin] at h
  exact planCodec_yields h

/-- The slot loop adds nothing after a command. -/
theorem afterExec_of_command {i : Instr} (hi : i.context = .command) (t : State) : afterExec i t = t := by
  cases i with
  | flag v => cases hi
  | lit b => cases hi
  | matchTok len off => cases hi
  | _ => rfl

/-- Every value but the three codes of R146 to R148 is executed as no operation (R149). -/
theorem exec_decodeCommand_of_other {v : Byte} (h : v ≠ 1 ∧ v ≠ 2 ∧ v ≠ 3) (s : State) :
    exec (decodeCommand v) s = .next s := by
  obtain ⟨h1, h2, h3⟩ := h
  rw [decodeCommand, if_neg h1, if_neg h2, if_neg h3]
  repeat' split
  all_goals rfl

/-- A command has no effect while BUSY (R36, R150). -/
theorem exec_command_of_busy {i : Instr} (hi : i.context = .command) {s : State} (hrun : s.run = .busy) :
    exec i s = .next s := by
  have started : ∀ o start, command o start s = .next s := fun o start => by rw [command_eq, if_pos hrun]
  cases i with
  | flag v => cases hi
  | lit b => cases hi
  | matchTok len off => cases hi
  | cmdClear => exact started .clear fun t => { clearInstance t with run := .idle }
  | cmdEncode => exact started .encode beginEncode
  | cmdDecode => exact started .decode beginDecode
  | _ => rfl

theorem decodeCommand_context (v : Byte) : (decodeCommand v).context = .command :=
  decode_context (c := .command) (l := [v]) rfl

/-- A write to `CMD` runs the command of its value, and nothing after it. -/
theorem planHost_writeCmd_yields {v : Byte} {s t : State} :
    (planHost (.writeCmd v) s).Yields t ↔ exec (decodeCommand v) s = .next t := by
  change (∃ u, exec (decodeCommand v) s = .next u ∧ t = afterExec (decodeCommand v) u) ↔ _
  simp [afterExec_of_command (decodeCommand_context v)]

theorem hostAccess_of_writeCmd {v : Byte} {s t : State} (h : exec (decodeCommand v) s = .next t) :
    HostAccess s (.writeCmd v) t := by
  by_cases hrun : s.run = .busy
  · rw [exec_command_of_busy (decodeCommand_context v) hrun] at h
    cases h
    exact .ignored v (.inl hrun)
  have started : ∀ {o start}, command o start s = .next t → t = start (accept o s) := fun {o start} hc => by
    rw [command_eq, if_neg hrun] at hc
    cases hc
    rfl
  by_cases h1 : v = 1
  · subst h1
    rw [started (o := .clear) (start := fun t => { clearInstance t with run := .idle }) h]
    exact .clear hrun
  by_cases h2 : v = 2
  · subst h2
    rw [started (o := .encode) (start := beginEncode) h]
    exact .encode hrun
  by_cases h3 : v = 3
  · subst h3
    rw [started (o := .decode) (start := beginDecode) h]
    exact .decode hrun
  · rw [exec_decodeCommand_of_other ⟨h1, h2, h3⟩] at h
    cases h
    exact .ignored v (.inr ⟨h1, h2, h3⟩)

theorem planInput_yields {s t u : State} (h : (planInput s u).Yields t) : s.run ≠ .busy ∧ t = u := by
  rcases planInput_cases s u with ⟨hrun, hp⟩ | ⟨-, hp⟩ <;> rw [hp] at h
  · exact ⟨hrun, h⟩
  · exact h.elim

/-- The host's access is made, or it leaves the codec a step. -/
theorem planHost_yields {e : HostEvent} {s t : State} (h : (planHost e s).Yields t) :
    HostAccess s e t ∨ ∃ l, CodecStep { s with hostIn := l } t := by
  cases e with
  | writeIn a b =>
    obtain ⟨hrun, rfl⟩ := planInput_yields h
    exact .inl (.writeIn a b hrun)
  | writeInLen n =>
    obtain ⟨hrun, rfl⟩ := planInput_yields h
    exact .inl (.writeInLen n hrun)
  | writeCmd v => exact .inl (hostAccess_of_writeCmd (planHost_writeCmd_yields.mp h))
  | pass => exact .inr ⟨s.hostIn, planCodec_yields h⟩
  | await =>
    rw [planHost] at h
    split at h
    · exact .inr ⟨_, planCodec_yields h⟩
    · cases h
      exact .inr ⟨s.hostIn, .wait ‹_›⟩
  | hardReset =>
    cases h
    exact .inl .hardReset

/-- What a step can do: the host's oldest access, or a step of the codec, which the accesses left do not influence. -/
theorem step_cases {s t : State} (h : step s = .next t) :
    (∃ e rest, s.hostIn = e :: rest ∧ HostAccess { s with hostIn := rest } e t) ∨
      ∃ l, CodecStep { s with hostIn := l } t := by
  cases hin : s.hostIn with
  | nil => exact .inr ⟨s.hostIn, codecStep_of_step hin h⟩
  | cons e rest =>
    rw [step_next_iff_yields, plan_of_hostIn_cons hin] at h
    exact (planHost_yields h).imp (fun h => ⟨e, rest, rfl, h⟩) id

end Sys2Proof.Machine
end

section
/-! PROOFS. The host's side (spec 10_state.md R36 to R41, R45): what it reads, its writes of the input, a command while BUSY,
and hardware reset. -/

namespace Sys2Proof.Machine

/-- Settles O10: the command answers the state it was given, and the slot loop adds nothing to it. -/
theorem commandWhileBusyHasNoEffect : Obligations.CommandWhileBusyHasNoEffect := by
  intro s hrun
  refine ⟨fun i hi => exec_command_of_busy hi hrun, fun v rest hin => ?_⟩
  rw [step_next_iff_yields, plan_of_hostIn_cons hin, planHost_writeCmd_yields]
  exact exec_command_of_busy (decodeCommand_context v) hrun

/-- Settles O19: outside BUSY the plan is the write itself. -/
theorem hostWritesItsInput : Obligations.HostWritesItsInput := by
  intro s rest hrun
  refine ⟨fun a b hin => ?_, fun n hin => ?_⟩
  · refine ⟨setIn a.toNat b { s with hostIn := rest }, step_of_plan_move ?_, inByte_setIn_same _ _ _,
      fun k hk => inByte_setIn_other b _ hk, rfl⟩
    rw [plan_of_hostIn_cons hin, planHost, planInput, if_neg hrun]
  · apply step_of_plan_move
    rw [plan_of_hostIn_cons hin, planHost, planInput, if_neg hrun]

/-- The layout of `STATUS` (R37): three 2-bit fields, and zero above them. -/
theorem status_layout : ∀ state err op : BitVec 2,
    (state.setWidth 8 ||| (err.setWidth 8 <<< 2) ||| (op.setWidth 8 <<< 4)).toNat =
        state.toNat + 4 * err.toNat + 16 * op.toNat ∧
      (state.setWidth 8 ||| (err.setWidth 8 <<< 2) ||| (op.setWidth 8 <<< 4)).extractLsb' 6 2 = 0 := by decide

/-- Settles O21: `STATUS` by its layout, the other registers by their definition. -/
theorem hostRegistersRead : Obligations.HostRegistersRead := by
  intro s
  obtain ⟨hvalue, hzero⟩ := status_layout s.run.code s.err.code s.op.code
  exact ⟨rfl, hvalue, hzero, rfl, rfl, rfl⟩

/-- Settles O22: the step is the reset, whose tables are empty. -/
theorem hardwareResetValues : Obligations.HardwareResetValues := by
  intro s rest hin
  refine ⟨hardReset { s with hostIn := rest }, step_of_plan_move (by rw [plan_of_hostIn_cons hin, planHost]), rfl, rfl,
    winByte_of_win_nil rfl, bucket_of_idx_nil rfl, ?_⟩
  have hstatus : statusByte State.reset = 0x00 := by decide
  exact ⟨hstatus, rfl, rfl, rfl, rfl, rfl, rfl, rfl, rfl, rfl, rfl, rfl, rfl, rfl, rfl, rfl⟩

end Sys2Proof.Machine
end

section
/-! PROOFS. The registers the operations write (spec 10_state.md R47, 41_encoder.md R110 to R117, 42_decoder.md R130), and
the length of the match a slot stages (40_dictionary.md R96, R101). -/

namespace Sys2Proof.Machine

/-- A run of pushes writes the dictionary and nothing else. -/
theorem pushAll_frame (l : List Byte) (s : State) :
    pushAll l s = { s with
      win := (pushAll l s).win, cur := s.cur + BitVec.ofNat 13 l.length, cnt := s.cnt + l.length,
      idx := (pushAll l s).idx } := by
  rw [← pushAll_cur, ← pushAll_cnt]
  induction l generalizing s with
  | nil => rfl
  | cons b l ih => exact ih (push b s)

/-- A copy writes the window, the cursor, its own registers and `OUT`, and nothing else (R130). -/
theorem copyBytes_frame (n : Nat) (s : State) :
    copyBytes n s = { s with
      win := (copyBytes n s).win, cur := s.cur + BitVec.ofNat 13 n, src := s.src + BitVec.ofNat 13 n,
      rem := s.rem - n, out := (copyBytes n s).out } := by
  rw [← copyBytes_cur, ← copyBytes_src, ← copyBytes_rem]
  induction n generalizing s with
  | zero => rfl
  | succ n ih => exact ih (copyOne s)

/-- Staging a byte does not influence the dictionary. -/
theorem pushAll_stageByte (l : List Byte) (b : Byte) (s : State) :
    pushAll l (stageByte b s) = stageByte b (pushAll l s) := by
  induction l generalizing s with
  | nil => rfl
  | cons c l ih => exact ih (push c s)

/-- What a lookup answers is at least 3 long and no longer than the remaining input (R101). -/
theorem lookup_length {s : State} {len : Nat} {off : WinIx} (h : lookup s = some (len, off)) :
    Config.minLen ≤ len ∧ len ≤ lookupMax s := by
  unfold lookup at h
  split at h
  · cases h
  · dsimp only at h
    split at h
    · rename_i hmin
      rw [Option.some.injEq] at h
      rw [h] at hmin
      refine ⟨hmin, ?_⟩
      rcases scan_cases s (lookupMax s) _ (0, 0) with hs | ⟨c, -, -, hs⟩ <;> rw [hs] at h <;> cases h
      · exact Nat.zero_le _
      · simpa using (extend_bounds s c.widx (s.cnt - c.abs) (lookupMax s) 0).2
    · cases h

/-- A slot pushes bytes it still has, stages at most two, and goes to the next slot (R114 to R116). -/
theorem encSlot_pushes {s : State} (h : s.pos < s.inLen) :
    ∃ (l : List Byte) (flag : Byte) (stage : Vector Byte 16) (k : Nat), s.pos + l.length ≤ s.inLen ∧ k ≤ 2 ∧
      encSlot s = { s with
        win := (pushAll l s).win, cur := s.cur + BitVec.ofNat 13 l.length, cnt := s.cnt + l.length,
        idx := (pushAll l s).idx, pos := s.pos + l.length, flagAcc := flag, slot := s.slot + 1, stage := stage,
        stageLen := s.stageLen + k } := by
  rcases encSlot_cases s with ⟨len, off, hl, he⟩ | ⟨-, he⟩
  · have hlen : len ≤ s.inLen - s.pos := (lookup_length hl).2.trans (Nat.min_le_right _ _)
    refine ⟨(List.range len).map fun k => inByte s (s.pos + k), s.flagAcc,
      (stageByte (tokenHigh (tokenOf len off)) (stageByte (tokenLow (tokenOf len off)) s)).stage, 2, ?_, le_rfl, ?_⟩
    · rw [List.length_map, List.length_range]
      omega
    · rw [he, encMatch, pushAll_stageByte, pushAll_stageByte, pushAll_frame, List.length_map, List.length_range]
      rfl
  · exact ⟨[inByte s s.pos], _, _, 1, h, by decide, he⟩

/-- A step of ENCODE writes the dictionary, the encoder's registers and the state, and appends to `OUT`. -/
theorem encStep_frame (s : State) :
    ∃ win cur cnt idx pos flag slot stage stageLen out run, s.out <+: out ∧
      encStep s = { s with
        win := win, cur := cur, cnt := cnt, idx := idx, pos := pos, flagAcc := flag, slot := slot, stage := stage,
        stageLen := stageLen, out := out, run := run } := by
  rcases encStep_cases s with ⟨-, hpos, he⟩ | ⟨-, -, he⟩ | ⟨-, he⟩
  · obtain ⟨l, flag, stage, k, -, -, hs⟩ := encSlot_pushes hpos
    exact ⟨_, _, _, _, _, _, _, _, _, _, _, List.prefix_rfl, he.trans hs⟩
  · exact ⟨_, _, _, _, _, _, _, _, _, _, _, List.prefix_append _ _, he⟩
  · exact ⟨_, _, _, _, _, _, _, _, _, _, _, List.prefix_append _ _, he⟩

@[simp] theorem encStep_cfg (s : State) : (encStep s).cfg = s.cfg := by
  obtain ⟨win, cur, cnt, idx, pos, flag, slot, stage, stageLen, out, run, hout, he⟩ := encStep_frame s
  rw [he]

@[simp] theorem beginEncode_cfg (s : State) : (beginEncode s).cfg = s.cfg := by
  rcases beginEncode_cases s with ⟨-, hb⟩ | ⟨-, hb⟩ <;> rw [hb] <;> rfl

theorem CodecStep.cfg_eq {s t : State} (h : CodecStep s t) : t.cfg = s.cfg := by cases h <;> simp

theorem HostAccess.cfg_eq {s t : State} {e : HostEvent} (h : HostAccess s e t) : t.cfg = s.cfg := by
  cases h with
  | encode => exact beginEncode_cfg _
  | _ => rfl

/-- Settles O9: neither a step of the codec nor an access of the host writes the parameters. -/
theorem parametersNeverChange : Obligations.ParametersNeverChange := by
  intro s t h
  rcases step_cases h with ⟨e, rest, -, ha⟩ | ⟨l, hc⟩
  · exact ha.cfg_eq
  · exact hc.cfg_eq

/-- Only DECODE has elements. -/
theorem Selects.op_eq {s : State} {c : Context} (h : Selects s c) : s.op = .decode := by
  obtain ⟨-, hop, -, -⟩ := h
  exact hop

/-- Settles O31: of the codec's steps only `encStep` belongs to ENCODE, and it does not belong to DECODE. -/
theorem operationsKeepTheirOwnRegisters : Obligations.OperationsKeepTheirOwnRegisters := by
  intro s t h
  refine ⟨fun ⟨hrun, hop, hin⟩ => ?_, fun ⟨hrun, hop, hin⟩ => ?_⟩
  · cases codecStep_of_step hin h with
    | wait hrest => exact absurd hrun hrest
    | encode _ henc => simp [hop] at henc
    | _ => simp
  · have hnot : s.op ≠ .decode := by simp [hop]
    cases codecStep_of_step hin h with
    | wait hrest => exact absurd hrun hrest
    | encode =>
      obtain ⟨win, cur, cnt, idx, pos, flag, slot, stage, stageLen, out, run, hout, he⟩ := encStep_frame s
      simp [he]
    | decodeEnd _ hdec => exact absurd hdec hnot
    | flag hs => exact absurd hs.op_eq hnot
    | lit hs => exact absurd hs.op_eq hnot
    | matchTok _ hs => exact absurd hs.op_eq hnot
    | cutToken hs => exact absurd hs.op_eq hnot

/-- Settles O32: each step of the codec appends to `OUT` or leaves it. -/
theorem outputOnlyGrows : Obligations.OutputOnlyGrows := by
  intro s t _ hin h
  cases codecStep_of_step hin h with
  | encode =>
    obtain ⟨win, cur, cnt, idx, pos, flag, slot, stage, stageLen, out, run, hout, he⟩ := encStep_frame s
    rw [he]
    exact hout
  | lit => exact List.prefix_append _ _
  | matchTok token => exact copyBytes_out_prefix _ (loadCopy (tokenLen token) (tokenOff token) (advanceIp 2 s))
  | _ => exact List.prefix_rfl

end Sys2Proof.Machine
end

section
/-! PROOFS. The invariants of the state (spec 10_state.md R20 to R47): the window and the index first, each kept by the
operation that writes it, then every step. -/

namespace Sys2Proof.Machine

/-- A window in canonical form with no index beyond `W` (R21). -/
def WindowSound (c : Config) (m : List Host.Cell) : Prop :=
  Memory.wf (some c.winFill) m ∧ ∀ e ∈ m, e.1 < Config.windowSize

/-- A store keeps the window sound. -/
theorem setWin_windowSound {s : State} (h : WindowSound s.cfg s.win) (i : WinIx) (b : Byte) :
    WindowSound s.cfg (setWin i b s).win := by
  obtain ⟨hwf, hrange⟩ := h
  refine ⟨Memory.write_wf _ _ hwf, fun e he => ?_⟩
  rcases Memory.mem_write he with hi | he
  · rw [hi]
    exact i.isLt
  · exact hrange e he

theorem pushAll_windowSound {s : State} (h : WindowSound s.cfg s.win) (l : List Byte) :
    WindowSound s.cfg (pushAll l s).win := by
  induction l generalizing s with
  | nil => exact h
  | cons b l ih => exact ih (s := push b s) (setWin_windowSound h s.cur b)

theorem copyBytes_windowSound {s : State} (h : WindowSound s.cfg s.win) (n : Nat) :
    WindowSound s.cfg (copyBytes n s).win := by
  induction n generalizing s with
  | zero => exact h
  | succ n ih => exact ih (s := copyOne s) (setWin_windowSound h s.cur (winByte s s.src))

/-- The candidates of a bucket, oldest first, after `n` bytes were pushed (R25, R26). -/
structure BucketSound (n : Nat) (l : List Candidate) : Prop where
  nonempty : l ≠ []
  cap : l.length ≤ Config.bucketCap
  positions : ∀ c ∈ l, c.widx = BitVec.ofNat 13 c.abs ∧ c.abs + 2 ≤ n
  rises : l.Pairwise fun x y => x.abs < y.abs

theorem BucketSound.mono {n m : Nat} {l : List Candidate} (h : BucketSound n l) (hnm : n ≤ m) : BucketSound m l :=
  { h with positions := fun c hc => (h.positions c hc).imp id fun hle => hle.trans hnm }

/-- The newest candidate enters its bucket, empty or not (R94). -/
theorem BucketSound.append {n : Nat} {l : List Candidate} (h : l = [] ∨ BucketSound n l) (hn : 1 ≤ n) :
    BucketSound (n + 1) (newest Config.bucketCap (l ++ [{ widx := BitVec.ofNat 13 (n - 1), abs := n - 1 }])) := by
  have hpos : ∀ c ∈ l, c.widx = BitVec.ofNat 13 c.abs ∧ c.abs + 2 ≤ n := by
    rcases h with rfl | h
    · simp
    · exact h.positions
  have hrises : l.Pairwise fun x y => x.abs < y.abs := by
    rcases h with rfl | h
    · exact List.Pairwise.nil
    · exact h.rises
  refine ⟨?_, ?_, fun c hc => ?_, ?_⟩
  · rw [← List.length_pos_iff_ne_nil, newest_length, List.length_append]
    simp
  · rw [newest_length]
    exact Nat.min_le_left _ _
  · rcases List.mem_append.mp (mem_of_mem_newest hc) with hc | hc
    · obtain ⟨hwidx, habs⟩ := hpos c hc
      exact ⟨hwidx, by omega⟩
    · obtain rfl := List.mem_singleton.mp hc
      exact ⟨rfl, by dsimp only; omega⟩
  · refine List.Pairwise.drop (List.pairwise_append.mpr ⟨hrises, List.pairwise_singleton _ _, fun x hx y hy => ?_⟩)
    obtain rfl := List.mem_singleton.mp hy
    obtain ⟨-, habs⟩ := hpos x hx
    dsimp only
    omega

/-- The index after `n` bytes were pushed: in canonical form, and each listed bucket sound (R24 to R26). -/
def IndexSound (n : Nat) (idx : List (Nat × List Candidate)) : Prop :=
  Table.Sorted idx ∧ ∀ e ∈ idx, e.1 < 2 ^ 16 ∧ BucketSound n e.2

theorem bucket_sound {s : State} (h : IndexSound s.cnt s.idx) (k : Hash) :
    bucket s k = [] ∨ BucketSound s.cnt (bucket s k) := by
  obtain ⟨-, hmem⟩ := h
  rw [bucket]
  cases hg : Table.get s.idx k.toNat with
  | none => exact .inl rfl
  | some l => exact .inr (hmem _ (Table.mem_of_get hg)).2

/-- PUSH enters at most one candidate: the pair that ends with the byte pushed (R93). -/
theorem push_idx (b : Byte) (s : State) :
    ∃ k : Hash, (push b s).idx =
      if 1 ≤ s.cnt then
        Table.put s.idx k.toNat (newest Config.bucketCap (bucket s k ++ [{ widx := s.cur - 1, abs := s.cnt - 1 }]))
      else s.idx := by
  have hcur : s.cur + 1 - 2 = s.cur - 1 := by bv_omega
  refine ⟨s.cfg.hash (winByte (pushWindow b s) (s.cur - 1)) (winByte (pushWindow b s) (s.cur - 1 + 1)), ?_⟩
  rw [← hcur]
  by_cases hcnt : 1 ≤ s.cnt
  · rw [if_pos hcnt]
    exact if_pos (Nat.succ_le_succ hcnt)
  · rw [if_neg hcnt]
    exact if_neg fun h => hcnt (Nat.le_of_succ_le_succ h)

/-- PUSH keeps the index sound, where the cursor counts the bytes pushed (R22, R93, R94). -/
theorem push_indexSound {s : State} (h : IndexSound s.cnt s.idx) (hcur : s.cur = BitVec.ofNat 13 s.cnt) (b : Byte) :
    IndexSound (s.cnt + 1) (push b s).idx := by
  obtain ⟨hsorted, hmem⟩ := id h
  have hold : ∀ e ∈ s.idx, e.1 < 2 ^ 16 ∧ BucketSound (s.cnt + 1) e.2 := fun e he =>
    (hmem e he).imp id fun hb => hb.mono (Nat.le_succ _)
  obtain ⟨k, hidx⟩ := push_idx b s
  rw [hidx]
  split
  · rename_i hcnt
    have hprev : s.cur - 1 = BitVec.ofNat 13 (s.cnt - 1) := by
      rw [hcur]
      bv_omega
    rw [hprev]
    refine ⟨Table.put_sorted _ _ hsorted, fun e he => ?_⟩
    rcases Table.mem_put he with rfl | he
    · exact ⟨k.isLt, BucketSound.append (bucket_sound h k) hcnt⟩
    · exact hold e he
  · exact ⟨hsorted, hold⟩

theorem pushAll_indexSound {s : State} (h : IndexSound s.cnt s.idx) (hcur : s.cur = BitVec.ofNat 13 s.cnt)
    (l : List Byte) : IndexSound (s.cnt + l.length) (pushAll l s).idx := by
  induction l generalizing s with
  | nil => exact h
  | cons b l ih =>
    have hcur' : (push b s).cur = BitVec.ofNat 13 (push b s).cnt := by
      rw [push_cur, push_cnt, hcur, BitVec.ofNat_add]
      rfl
    have := ih (s := push b s) (push_indexSound h hcur b) hcur'
    rwa [push_cnt, Nat.add_assoc, Nat.add_comm 1] at this

theorem State.Inv.windowSound {s : State} (h : s.Inv) : WindowSound s.cfg s.win := ⟨h.winWf, h.winRange⟩

theorem State.Inv.indexSound {s : State} (h : s.Inv) : IndexSound s.cnt s.idx :=
  ⟨h.idxSorted, fun e he =>
    have ⟨hhash, hne, hcap⟩ := h.idxBuckets e he
    ⟨hhash, hne, hcap, h.candidates e he, h.bucketsRise e he⟩⟩

/-- The invariants do not speak of the host's pending accesses. -/
theorem State.Inv.withHostIn {s : State} (h : s.Inv) (l : List HostEvent) : State.Inv { s with hostIn := l } := { h with }

/-- A cleared state meets the invariants (R45), idle or at the start of an operation. -/
theorem inv_of_cleared {c : Config} {stage : Vector Byte 16} {src : WinIx} {inBuf : List Host.Cell} {n : Nat}
    {run : RunState} {op : OpCode} {l : List HostEvent} (hin : Memory.wf none inBuf) (hn : n < 2 ^ Config.cntBits)
    (hrun : (run = .idle ∧ (op = .noOp ∨ op = .clear)) ∨ (run = .busy ∧ (op = .encode ∨ op = .decode))) :
    State.Inv { State.reset with
      cfg := c, stage := stage, src := src, inBuf := inBuf, inLen := n, run := run, op := op, hostIn := l } where
  winWf := Memory.nil_wf _
  winRange := by simp [State.reset]
  inWf := hin
  idxSorted := List.Pairwise.nil
  idxBuckets := by simp [State.reset]
  candidates := by simp [State.reset]
  bucketsRise := by simp [State.reset]
  slotBound := Nat.zero_le _
  stageBound := Nat.zero_le _
  stageSlots := fun _ _ => le_rfl
  inLenBound := hn
  remZero := rfl
  ipBound := fun _ _ => Nat.zero_le _
  posBound := fun _ _ => ⟨Nat.zero_le _, rfl⟩
  errFault := by rcases hrun with ⟨rfl, -⟩ | ⟨rfl, -⟩ <;> simp [State.reset]
  errPosZero := fun _ => rfl
  opRunning := by rcases hrun with ⟨rfl, -⟩ | ⟨-, hop⟩ <;> simp [*]
  opIdle := by rcases hrun with ⟨-, hop⟩ | ⟨rfl, -⟩ <;> simp [*]
  curEncode := fun _ _ => rfl
  curDecode := fun _ => rfl
  decodeUnindexed := fun _ => ⟨rfl, rfl⟩

/-- Settles O34: the reset state is a cleared one. -/
theorem resetMeetsTheInvariants : Obligations.ResetMeetsTheInvariants :=
  inv_of_cleared (Memory.nil_wf _) (by decide) (.inl ⟨rfl, .inl rfl⟩)

/-- The end of an operation (R153). -/
theorem finish_inv {s : State} (h : s.Inv) (hrun : s.run = .busy) : (finish s).Inv :=
  { h with
    stageSlots := nofun
    ipBound := nofun
    posBound := nofun
    errFault := by simpa [hrun] using h.errFault
    opRunning := fun _ => h.opRunning (by simp [hrun])
    opIdle := nofun
    curEncode := fun hop _ => h.curEncode hop (by simp [hrun]) }

/-- The fault entry (R167) of ENCODE when it is accepted (R111), or of DECODE while it runs (R134). -/
theorem faulted_inv {s : State} (h : s.Inv) {o : OpCode} {e : ErrCode} {info : Nat} {out : List Byte}
    (he : e ≠ .noError) (hinfo : e ≠ .format → info = 0)
    (ho : o = .encode ∨ o = .decode ∧ s.op = .decode ∧ out = s.out) :
    State.Inv { s with op := o, err := e, errPos := info, run := .fault, out := out } :=
  { h with
    stageSlots := nofun
    ipBound := nofun
    posBound := nofun
    errFault := iff_of_true he rfl
    errPosZero := hinfo
    opRunning := fun _ => ho.imp id And.left
    opIdle := nofun
    curEncode := fun _ hrun => absurd rfl hrun
    curDecode := by
      rcases ho with rfl | ⟨-, hop, rfl⟩
      · nofun
      · exact fun _ => h.curDecode hop
    decodeUnindexed := by
      rcases ho with rfl | ⟨-, hop, -⟩
      · nofun
      · exact fun _ => h.decodeUnindexed hop }

/-- A step of DECODE stores bytes and advances `ip` and `slot` (R127 to R131). -/
theorem decoded_inv {s : State} (h : s.Inv) (hop : s.op = .decode) {win : List Host.Cell} {cur src : WinIx}
    {ip slot rem : Nat} {flag : Byte} {out : List Byte} (hwin : WindowSound s.cfg win)
    (hcur : cur = BitVec.ofNat 13 out.length) (hip : ip ≤ s.inLen) (hslot : slot ≤ Config.slots) (hrem : rem = 0) :
    State.Inv { s with
      win := win, cur := cur, ip := ip, flagSr := flag, slot := slot, src := src, rem := rem, out := out } :=
  { h with
    winWf := hwin.1
    winRange := hwin.2
    slotBound := hslot
    stageSlots := fun _ henc => absurd (hop.symm.trans henc) (by decide)
    remZero := hrem
    ipBound := fun _ _ => hip
    curEncode := fun henc _ => absurd (hop.symm.trans henc) (by decide)
    curDecode := fun _ => hcur }

/-- A slot of ENCODE pushes `n` bytes and stages at most two (R114 to R116). -/
theorem pushed_inv {s : State} (h : s.Inv) (hrun : s.run = .busy) (hop : s.op = .encode)
    {win : List Host.Cell} {idx : List (Nat × List Candidate)} {n k : Nat} {flag : Byte} {stage : Vector Byte 16}
    (hwin : WindowSound s.cfg win) (hidx : IndexSound (s.cnt + n) idx) (hpos : s.pos + n ≤ s.inLen)
    (hslot : s.slot < Config.slots) (hk : k ≤ 2) :
    State.Inv { s with
      win := win, cur := s.cur + BitVec.ofNat 13 n, cnt := s.cnt + n, idx := idx, pos := s.pos + n, flagAcc := flag,
      slot := s.slot + 1, stage := stage, stageLen := s.stageLen + k } := by
  have hstage : s.stageLen ≤ 2 * s.slot := h.stageSlots hrun hop
  have hroom : s.slot < 8 := hslot
  obtain ⟨-, hcnt⟩ := h.posBound hrun hop
  have hcur : s.cur = BitVec.ofNat 13 s.cnt := h.curEncode hop (by simp [hrun])
  have hnot : s.op ≠ .decode := by simp [hop]
  obtain ⟨hsorted, hbuckets⟩ := hidx
  exact
    { h with
      winWf := hwin.1
      winRange := hwin.2
      idxSorted := hsorted
      idxBuckets := fun e he => ⟨(hbuckets e he).1, (hbuckets e he).2.nonempty, (hbuckets e he).2.cap⟩
      candidates := fun e he => (hbuckets e he).2.positions
      bucketsRise := fun e he => (hbuckets e he).2.rises
      slotBound := hslot
      stageBound := by dsimp only; omega
      stageSlots := fun _ _ => by dsimp only; omega
      posBound := fun _ _ => ⟨hpos, by dsimp only; omega⟩
      curEncode := fun _ _ => by dsimp only; rw [hcur, BitVec.ofNat_add]
      curDecode := fun hdec => absurd hdec hnot
      decodeUnindexed := fun hdec => absurd hdec hnot }

/-- A closed block leaves the dictionary and the input alone (R117). -/
theorem encClose_inv {s : State} (h : s.Inv) (hop : s.op = .encode) : (encClose s).Inv :=
  { h with curDecode := fun hdec => absurd (hop.symm.trans hdec) (by decide) }

theorem openBlock_inv {s : State} (h : s.Inv) : (openBlock s).Inv :=
  { h with
    slotBound := Nat.zero_le _
    stageBound := Nat.zero_le _
    stageSlots := fun _ _ => le_rfl }

theorem encStep_inv {s : State} (h : s.Inv) (hrun : s.run = .busy) (hop : s.op = .encode) : (encStep s).Inv := by
  rcases encStep_cases s with ⟨hslot, hpos, he⟩ | ⟨-, -, he⟩ | ⟨-, he⟩ <;> rw [he]
  · obtain ⟨l, flag, stage, k, hl, hk, hs⟩ := encSlot_pushes hpos
    rw [hs]
    exact pushed_inv h hrun hop (pushAll_windowSound h.windowSound l)
      (pushAll_indexSound h.indexSound (h.curEncode hop (by simp [hrun])) l) hl hslot hk
  · exact openBlock_inv (encClose_inv h hop)
  · exact finish_inv (encClose_inv h hop) hrun

/-- A position that selects a slot's payload is inside its block (R128). -/
theorem slot_lt_of_contextAt {s : State} (h : contextAt s ≠ .flagByte) : s.slot < Config.slots := by
  unfold contextAt at h
  split at h
  · exact absurd rfl h
  · omega

theorem CodecStep.inv {s t : State} (hs : s.Inv) (h : CodecStep s t) : t.Inv := by
  cases h with
  | wait => exact hs
  | encode hrun hop => exact encStep_inv hs hrun hop
  | decodeEnd hrun => exact finish_inv hs hrun
  | flag hsel =>
    obtain ⟨-, hop, hip, -⟩ := hsel
    exact decoded_inv hs hop hs.windowSound (hs.curDecode hop) hip (Nat.zero_le _) hs.remZero
  | lit hsel =>
    obtain ⟨-, hop, hip, hctx⟩ := hsel
    have hcur : s.cur + 1 = BitVec.ofNat 13 (s.out ++ [inByte s s.ip]).length := by
      rw [hs.curDecode hop, List.length_append, BitVec.ofNat_add]
      rfl
    exact decoded_inv hs hop (setWin_windowSound hs.windowSound s.cur (inByte s s.ip)) hcur hip
      (slot_lt_of_contextAt (s := s) (by simp [hctx])) hs.remZero
  | matchTok token hsel _ htwo =>
    obtain ⟨-, hop, hip, hctx⟩ := hsel
    have hcur : s.cur + BitVec.ofNat 13 (tokenLen token) = BitVec.ofNat 13
        (copyBytes (tokenLen token) (loadCopy (tokenLen token) (tokenOff token) (advanceIp 2 s))).out.length := by
      rw [copyBytes_out_length, BitVec.ofNat_add, hs.curDecode hop]
      rfl
    rw [copyBytes_frame]
    exact decoded_inv hs hop (copyBytes_windowSound (s := loadCopy _ _ (advanceIp 2 s)) hs.windowSound _) hcur
      (by dsimp only [loadCopy_ip, advanceIp_ip]; omega) (slot_lt_of_contextAt (s := s) (by simp [hctx])) (Nat.sub_self _)
  | cutToken hsel =>
    obtain ⟨-, hop, -, -⟩ := hsel
    exact faulted_inv hs (by decide) (fun hne => absurd rfl hne) (.inr ⟨hop, hop, rfl⟩)

theorem HostAccess.inv {s t : State} {e : HostEvent} (hs : s.Inv) (h : HostAccess s e t) : t.Inv := by
  cases h with
  | writeIn a b => exact { hs with inWf := Memory.write_wf _ _ hs.inWf }
  | writeInLen n hrun =>
    exact { hs with
      inLenBound := n.isLt
      ipBound := fun hbusy => absurd hbusy hrun
      posBound := fun hbusy => absurd hbusy hrun }
  | ignored => exact hs
  | clear => exact inv_of_cleared hs.inWf hs.inLenBound (.inl ⟨rfl, .inr rfl⟩)
  | encode =>
    rcases beginEncode_cases (accept .encode s) with ⟨-, hb⟩ | ⟨-, hb⟩ <;> rw [hb]
    · exact faulted_inv hs (by decide) (fun _ => rfl) (.inl rfl)
    · exact inv_of_cleared hs.inWf hs.inLenBound (.inr ⟨rfl, .inl rfl⟩)
  | decode => exact inv_of_cleared hs.inWf hs.inLenBound (.inr ⟨rfl, .inr rfl⟩)
  | hardReset => exact inv_of_cleared (Memory.nil_wf _) (by decide) (.inl ⟨rfl, .inl rfl⟩)

/-- Settles O33: each step of the codec and each access of the host keeps the invariants. -/
theorem everyStepKeepsTheInvariants : Obligations.EveryStepKeepsTheInvariants := by
  intro s t hs h
  rcases step_cases h with ⟨e, rest, -, ha⟩ | ⟨l, hc⟩
  · exact ha.inv (hs.withHostIn rest)
  · exact hc.inv (hs.withHostIn l)

end Sys2Proof.Machine
end

section
/-! PROOFS. What a sequence of pushes leaves in the dictionary (spec 40_dictionary.md R91 to R94): each push takes the
dictionary of the first `n` bytes to that of the first `n + 1`. -/

namespace Sys2Proof.Machine

/-- The dictionary of the first `n` bytes of `f` (R26, R92 to R94). -/
structure State.Holds (s : State) (f : Nat → Byte) (n : Nat) : Prop where
  cnt_eq : s.cnt = n
  cur_eq : s.cur = BitVec.ofNat 13 n
  window : ∀ q, q < n → n ≤ q + Config.windowSize → winByte s (BitVec.ofNat 13 q) = f q
  buckets : ∀ h, bucket s h = refBucket s.cfg f n h

theorem clearInstance_holds (s : State) (f : Nat → Byte) : (clearInstance s).Holds f 0 where
  cnt_eq := rfl
  cur_eq := rfl
  window := nofun
  buckets := bucket_of_idx_nil rfl

/-- Forgetting all but the newest `n` before or after an entry is added is the same. -/
theorem newest_newest_append {α : Type} (n : Nat) (l : List α) (x : α) :
    newest n (newest n l ++ [x]) = newest n (l ++ [x]) := by
  have hle : l.length - n ≤ l.length := Nat.sub_le _ _
  simp only [newest, List.length_append, List.length_drop, List.length_singleton]
  rw [← List.drop_append_of_le_length hle, List.drop_drop]
  congr 1
  omega

/-- One more byte completes the pair at `n`, which enters if `keep` accepts it (R93, R94). -/
theorem refCandidates_succ (f : Nat → Byte) (n : Nat) (keep : Byte → Byte → Bool) :
    refCandidates f (n + 2) keep =
      if keep (f n) (f (n + 1)) then
        newest Config.bucketCap (refCandidates f (n + 1) keep ++ [{ widx := BitVec.ofNat 13 n, abs := n }])
      else refCandidates f (n + 1) keep := by
  unfold refCandidates
  rw [newest_newest_append, Nat.add_sub_cancel, show n + 2 - 1 = n + 1 from rfl, List.range_succ,
    List.filter_append]
  cases hk : keep (f n) (f (n + 1)) <;> simp [hk]

/-- Distinct positions at most `W` apart have distinct window indices. -/
theorem ofNat_ne_of_lt {q n : Nat} (hlt : q < n) (hnear : n < q + Config.windowSize) :
    BitVec.ofNat 13 q ≠ BitVec.ofNat 13 n := by
  intro h
  have := congrArg BitVec.toNat h
  simp only [BitVec.toNat_ofNat, Config.windowSize] at this hnear
  omega

/-- PUSH of the next byte (R92 to R94). -/
theorem push_holds {s : State} {f : Nat → Byte} {n : Nat} (h : s.Holds f n) : (push (f n) s).Holds f (n + 1) where
  cnt_eq := by rw [push_cnt, h.cnt_eq]
  cur_eq := by rw [push_cur, h.cur_eq, BitVec.ofNat_add]; rfl
  window := by
    intro q hq hnear
    rw [winByte_push, h.cur_eq]
    rcases Nat.lt_succ_iff_lt_or_eq.mp hq with hlt | rfl
    · rw [if_neg (ofNat_ne_of_lt hlt hnear), h.window q hlt (by omega)]
    · exact if_pos rfl
  buckets := by
    intro k
    cases n with
    | zero => rw [bucket_push_first _ _ h.cnt_eq, h.buckets]; rfl
    | succ m =>
      have hprev : s.cur - 1 = BitVec.ofNat 13 m := by rw [h.cur_eq]; bv_omega
      have hbyte : winByte (push (f (m + 1)) s) (BitVec.ofNat 13 m) = f m := by
        rw [winByte_push, h.cur_eq, if_neg (ofNat_ne_of_lt (Nat.lt_succ_self m) (Nat.add_lt_add_left (by decide) m))]
        exact h.window m (Nat.lt_succ_self m) (Nat.add_le_add_left (by decide) m)
      rw [bucket_push _ _ (h.cnt_eq ▸ Nat.succ_pos m), hprev, hbyte, h.buckets, h.cnt_eq, Nat.add_sub_cancel]
      simp only [refBucket, refCandidates_succ, push_cfg, beq_iff_eq, eq_comm (a := k)]

/-- The pushes of the bytes from position `n` on. -/
theorem pushAll_holds {s : State} {f : Nat → Byte} {n : Nat} (h : s.Holds f n) (l : List Byte)
    (hl : ∀ k, k < l.length → l.getD k 0 = f (n + k)) : (pushAll l s).Holds f (n + l.length) := by
  induction l generalizing s n with
  | nil => exact h
  | cons b l ih =>
    obtain rfl : b = f n := hl 0 (Nat.succ_pos _)
    have := ih (push_holds h) fun k hk => by
      simpa [Nat.add_assoc, Nat.add_comm 1] using hl (k + 1) (Nat.succ_lt_succ hk)
    rwa [Nat.add_assoc, Nat.add_comm 1] at this

/-- Settles O39: the dictionary is that of the bytes pushed. -/
theorem pushesFillTheDictionary : Obligations.PushesFillTheDictionary := by
  intro s l
  have h := pushAll_holds (clearInstance_holds s fun q => l.getD q 0) l fun k _ => by rw [Nat.zero_add]
  rw [Nat.zero_add] at h
  refine ⟨h.cnt_eq, ?_, h.window, fun k => ?_⟩
  · rw [h.cur_eq, BitVec.toNat_ofNat]
  · rw [h.buckets, pushAll_cfg, clearInstance_cfg]

end Sys2Proof.Machine
end

section
/-! PROOFS. The bytes of a copy and where they are stored (spec 20_memory.md R58, R63, R189, 42_decoder.md R130, R131). -/

namespace Sys2Proof.Machine

/-- A copy is the iterations before its last one, then that one. -/
theorem copyBytes_succ (n : Nat) (s : State) : copyBytes (n + 1) s = copyOne (copyBytes n s) := by
  induction n generalizing s with
  | zero => rfl
  | succ n ih => exact ih (copyOne s)

/-- The byte that iteration `k` of a copy from `s` reads: what stands at `src + k` after the iterations before it (R63). -/
def copyByte (s : State) (k : Nat) : Byte := winByte (copyBytes k s) (s.src + BitVec.ofNat 13 k)

theorem copyBytes_out (n : Nat) (s : State) : (copyBytes n s).out = s.out ++ (List.range n).map (copyByte s) := by
  induction n with
  | zero => simp [copyBytes]
  | succ n ih =>
    rw [copyBytes_succ, copyOne_out, ih, copyBytes_src, List.range_succ, List.map_append, List.append_assoc]
    rfl

theorem winByte_copyBytes_succ (n : Nat) (s : State) (j : WinIx) :
    winByte (copyBytes (n + 1) s) j =
      if j = s.cur + BitVec.ofNat 13 n then copyByte s n else winByte (copyBytes n s) j := by
  rw [copyBytes_succ, winByte_copyOne, copyBytes_cur, copyBytes_src, copyByte]

/-- Where a copy is no longer than the window, the byte of iteration `k` stays at `cur + k`. -/
theorem winByte_copyBytes_stored {k n : Nat} (hk : k < n) (hn : n ≤ Config.windowSize) (s : State) :
    winByte (copyBytes n s) (s.cur + BitVec.ofNat 13 k) = copyByte s k := by
  induction n with
  | zero => exact absurd hk (Nat.not_lt_zero k)
  | succ n ih =>
    rw [winByte_copyBytes_succ]
    rcases Nat.lt_succ_iff_lt_or_eq.mp hk with hlt | rfl
    · have hne : s.cur + BitVec.ofNat 13 k ≠ s.cur + BitVec.ofNat 13 n := fun h =>
        ofNat_ne_of_lt hlt (by omega) ((BitVec.add_right_inj s.cur).mp h)
      rw [if_neg hne, ih hlt (Nat.le_of_succ_le hn)]
    · exact if_pos rfl

theorem winByte_copyBytes_other {n : Nat} {s : State} {j : WinIx} (hj : ∀ k, k < n → j ≠ s.cur + BitVec.ofNat 13 k) :
    winByte (copyBytes n s) j = winByte s j := by
  induction n with
  | zero => rfl
  | succ n ih => rw [winByte_copyBytes_succ, if_neg (hj n (Nat.lt_succ_self n)), ih fun k hk => hj k (Nat.lt_succ_of_lt hk)]

/-- The bytes of a copy, overlapping or not (R63): with `d = (cur - src) mod W`, iteration `k` reads what stood at
`src + (k mod d)` before the copy. Where `d` is 0 or above `k`, `k mod d` is `k`. -/
theorem copyByte_eq (s : State) (k : Nat) (hk : k < Config.windowSize) :
    copyByte s k = winByte s (s.src + BitVec.ofNat 13 (k % (s.cur - s.src).toNat)) := by
  induction k using Nat.strong_induction_on with
  | h k ih =>
    generalize hd : (s.cur - s.src).toNat = d at ih ⊢
    by_cases hrep : 1 ≤ d ∧ d ≤ k
    · obtain ⟨hpos, hle⟩ := hrep
      have hread : s.src + BitVec.ofNat 13 k = s.cur + BitVec.ofNat 13 (k - d) := by bv_omega
      calc copyByte s k
        _ = copyByte s (k - d) := by rw [copyByte, hread, winByte_copyBytes_stored (by omega) hk.le]
        _ = winByte s (s.src + BitVec.ofNat 13 ((k - d) % d)) := ih (k - d) (by omega) (by omega)
        _ = winByte s (s.src + BitVec.ofNat 13 (k % d)) := by rw [← Nat.mod_eq_sub_mod hle]
    · have hmod : k % d = k := by
        rcases Nat.eq_zero_or_pos d with rfl | hpos
        · exact Nat.mod_zero k
        · exact Nat.mod_eq_of_lt (by omega)
      rw [hmod]
      exact winByte_copyBytes_other fun j hj => by
        simp only [Config.windowSize] at hk
        bv_omega

/-- A selected MATCH with both its bytes present is its copy (R130). -/
theorem exec_matchTok_of_two {s : State} (hsel : Selects s .token) (htwo : 2 ≤ s.inLen - s.ip) (len : Nat) (off : WinIx) :
    exec (.matchTok len off) s = .next (copyBytes len (loadCopy len off (advanceIp 2 s))) :=
  execMatchTok_next.mpr ⟨hsel, (if_neg (by omega)).symm⟩

/-- Settles O25: the copy's bytes are stored in turn, and its frame is that of `copyBytes`. -/
theorem matchResultAndFrame : Obligations.MatchResultAndFrame := by
  intro len off s ⟨_, hmax⟩ hsel htwo
  have hlen : len ≤ Config.windowSize := hmax.trans (by decide)
  have hout := copyBytes_out len (loadCopy len off (advanceIp 2 s))
  refine ⟨_, (List.range len).map (copyByte (loadCopy len off (advanceIp 2 s))), exec_matchTok_of_two hsel htwo len off,
    by simp, fun k hk => ?_, fun j hj => winByte_copyBytes_other hj, fun a => ?_, ?_⟩
  · refine (winByte_copyBytes_stored hk hlen (loadCopy len off (advanceIp 2 s))).trans ?_
    simp [hk]
  · exact congrFun (inByte_congr (copyBytes_inBuf len (loadCopy len off (advanceIp 2 s)))) a
  · have hframe := copyBytes_frame len (loadCopy len off (advanceIp 2 s))
    rw [hout, loadCopy_rem, Nat.sub_self] at hframe
    exact hframe

/-- Settles O26: the bytes appended are those of the copy, and `k mod d` is `k` unless `1 <= d <= k`. -/
theorem matchRepeatsOverlap : Obligations.MatchRepeatsOverlap := by
  intro len off s ⟨_, hmax⟩ hsel htwo
  refine ⟨_, exec_matchTok_of_two hsel htwo len off, ?_⟩
  rw [copyBytes_out]
  refine congrArg (s.out ++ ·) (List.map_congr_left fun k hk => ?_)
  have hlt : k < len := List.mem_range.mp hk
  refine (copyByte_eq (loadCopy len off (advanceIp 2 s)) k (hlt.trans_le (hmax.trans (by decide)))).trans ?_
  change winByte s (off + BitVec.ofNat 13 (k % (s.cur - off).toNat)) = _
  split_ifs with hd
  · rfl
  · rcases Nat.eq_zero_or_pos (s.cur - off).toNat with hzero | hpos
    · rw [hzero, Nat.mod_zero]
    · rw [Nat.mod_eq_of_lt (by omega)]

end Sys2Proof.Machine
end

section
/-! PROOFS. The decoder's window holds the bytes decoded (spec 20_memory.md R61, 42_decoder.md R131, R133, R137): each byte
written keeps it, so every step does. -/

namespace Sys2Proof.Machine

/-- One more output byte is the newest one of its index modulo `W`, and of no other (R61). -/
theorem historyByte_append (fill b : Byte) (out : List Byte) (i : WinIx) :
    historyByte fill (out ++ [b]) i = if i = BitVec.ofNat 13 out.length then b else historyByte fill out i := by
  have hi : i.toNat < 8192 := i.isLt
  have hiff : i = BitVec.ofNat 13 out.length ↔ i.toNat = out.length % 8192 := by
    rw [BitVec.toNat_eq, BitVec.toNat_ofNat]
  simp only [historyByte, hiff, List.length_append, List.length_singleton, Nat.add_sub_cancel, Config.windowSize]
  by_cases hnew : i.toNat = out.length % 8192
  · have hlast : i.toNat + 8192 * ((out.length - i.toNat) / 8192) = out.length := by omega
    rw [if_pos (by omega), if_pos hnew, hlast]
    simp
  · rw [if_neg hnew]
    by_cases hlt : i.toNat < out.length
    · have hsame : (out.length - i.toNat) / 8192 = (out.length - 1 - i.toNat) / 8192 := by omega
      rw [if_pos (by omega), if_pos hlt, hsame, List.getD_append _ _ _ _ (by omega)]
    · rw [if_neg (by omega), if_neg hlt]

/-- WRITE(b) keeps the window (R131). -/
theorem writeByte_windowHolds {s : State} (h : s.WindowHolds) (b : Byte) : (writeByte b s).WindowHolds where
  curOut := by
    rw [State.outLen, writeByte_cur, writeByte_out, List.length_append, BitVec.ofNat_add, h.curOut]
    rfl
  window i := by
    rw [winByte_writeByte, writeByte_out, writeByte_cfg, historyByte_append, h.curOut, h.window, State.outLen]

theorem copyBytes_windowHolds {s : State} (h : s.WindowHolds) (n : Nat) : (copyBytes n s).WindowHolds := by
  induction n generalizing s with
  | zero => exact h
  | succ n ih => exact ih (s := copyOne s) { writeByte_windowHolds h (winByte s s.src) with }

/-- A cleared state has decoded nothing, and every cell reads `WIN_FILL` (R91, R137). -/
theorem clearInstance_windowHolds (s : State) : (clearInstance s).WindowHolds where
  curOut := rfl
  window := winByte_of_win_nil rfl

theorem CodecStep.windowHolds {s t : State} (hs : s.op = .decode → s.WindowHolds) (h : CodecStep s t)
    (hop : t.op = .decode) : t.WindowHolds := by
  cases h with
  | wait => exact hs hop
  | encode _ henc =>
    obtain ⟨win, cur, cnt, idx, pos, flag, slot, stage, stageLen, out, run, -, he⟩ := encStep_frame s
    rw [he] at hop
    exact absurd (henc.symm.trans hop) (by decide)
  | decodeEnd => exact { hs hop with }
  | flag => exact { hs hop with }
  | lit hsel => exact { writeByte_windowHolds (hs hsel.op_eq) (inByte s s.ip) with }
  | matchTok token hsel =>
    have hload : (loadCopy (tokenLen token) (tokenOff token) (advanceIp 2 s)).WindowHolds := { hs hsel.op_eq with }
    exact { copyBytes_windowHolds hload (tokenLen token) with }
  | cutToken => exact { hs hop with }

theorem HostAccess.windowHolds {s t : State} {e : HostEvent} (hs : s.op = .decode → s.WindowHolds)
    (h : HostAccess s e t) (hop : t.op = .decode) : t.WindowHolds := by
  cases h with
  | writeIn => exact { hs hop with }
  | writeInLen => exact { hs hop with }
  | ignored => exact hs hop
  | clear => cases hop
  | encode =>
    rcases beginEncode_cases (accept .encode s) with ⟨-, hb⟩ | ⟨-, hb⟩ <;> rw [hb] at hop <;> cases hop
  | decode => exact { clearInstance_windowHolds (accept .decode s) with }
  | hardReset => cases hop

/-- Settles O36: each step of the codec and each access of the host keeps the decoded window. -/
theorem everyStepKeepsTheDecodedWindow : Obligations.EveryStepKeepsTheDecodedWindow := by
  intro s t hs h
  rcases step_cases h with ⟨e, rest, -, ha⟩ | ⟨l, hc⟩
  · exact ha.windowHolds (s := { s with hostIn := rest }) fun hop => { hs hop with }
  · exact hc.windowHolds (s := { s with hostIn := l }) fun hop => { hs hop with }

end Sys2Proof.Machine
end

section
/-! PROOFS. The dictionary holds the input before `pos` while ENCODE runs (spec 20_memory.md R61, 40_dictionary.md R92 to
R94, 41_encoder.md R119), and the input does not change meanwhile (R66, R152). -/

namespace Sys2Proof.Machine

theorem dictionaryHolds_iff_holds {s : State} : s.DictionaryHolds ↔ s.Holds (inByte s) s.pos :=
  ⟨fun h => ⟨h.posCnt.symm, h.curPos, h.window, h.buckets⟩, fun h => ⟨h.cnt_eq.symm, h.cur_eq, h.window, h.buckets⟩⟩

/-- Pushing the input bytes from `pos` on and advancing `pos` past them keeps the dictionary. -/
theorem pushAll_dictionaryHolds {s : State} (h : s.DictionaryHolds) (l : List Byte)
    (hl : ∀ k, k < l.length → l.getD k 0 = inByte s (s.pos + k)) :
    State.DictionaryHolds { pushAll l s with pos := s.pos + l.length } := by
  have hpushed := pushAll_holds (dictionaryHolds_iff_holds.mp h) l hl
  rw [← inByte_congr (pushAll_inBuf l s)] at hpushed
  exact dictionaryHolds_iff_holds.mpr { hpushed with }

/-- A match pushes the input bytes it covers (R115). -/
theorem encMatch_dictionaryHolds {s : State} (h : s.DictionaryHolds) (len : Nat) (off : WinIx) :
    (encMatch len off s).DictionaryHolds := by
  have hpushed := pushAll_dictionaryHolds h ((List.range len).map fun k => inByte s (s.pos + k)) fun k hk => by
    rw [List.length_map, List.length_range] at hk
    simp [hk]
  rw [List.length_map, List.length_range] at hpushed
  rw [encMatch, pushAll_stageByte, pushAll_stageByte]
  exact { hpushed with }

/-- A literal pushes its byte (R116). -/
theorem encLit_dictionaryHolds {s : State} (h : s.DictionaryHolds) : (encLit s).DictionaryHolds := by
  have hpushed := pushAll_dictionaryHolds h [inByte s s.pos] fun k hk => by
    obtain rfl : k = 0 := Nat.lt_one_iff.mp hk
    rfl
  exact { hpushed with }

/-- A step of ENCODE pushes the input bytes of its slot, or leaves the dictionary and the input alone. -/
theorem encStep_dictionaryHolds {s : State} (h : s.DictionaryHolds) : (encStep s).DictionaryHolds := by
  rcases encStep_cases s with ⟨-, -, he⟩ | ⟨-, -, he⟩ | ⟨-, he⟩ <;> rw [he]
  · rcases encSlot_cases s with ⟨len, off, -, hs⟩ | ⟨-, hs⟩ <;> rw [hs]
    · exact { encMatch_dictionaryHolds h len off with }
    · exact { encLit_dictionaryHolds h with }
  · exact { h with }
  · exact { h with }

/-- ENCODE begins with an empty dictionary at position 0, unless it faults (R111, R112). -/
theorem beginEncode_dictionaryHolds {s : State} (hrun : (beginEncode s).run = .busy) :
    (beginEncode s).DictionaryHolds := by
  rcases beginEncode_cases s with ⟨-, hb⟩ | ⟨-, hb⟩ <;> rw [hb] at hrun ⊢
  · cases hrun
  · exact dictionaryHolds_iff_holds.mpr { clearInstance_holds s (inByte s) with }

theorem CodecStep.dictionaryHolds {s t : State} (hs : s.run = .busy → s.op = .encode → s.DictionaryHolds)
    (h : CodecStep s t) (hrun : t.run = .busy) (hop : t.op = .encode) : t.DictionaryHolds := by
  have element {c : Context} (hsel : Selects s c) (hsame : s.op = .encode) : t.DictionaryHolds :=
    absurd (hsel.op_eq.symm.trans hsame) (by decide)
  cases h with
  | wait => exact hs hrun hop
  | encode hbusy henc => exact encStep_dictionaryHolds (hs hbusy henc)
  | decodeEnd => cases hrun
  | flag hsel => exact element hsel hop
  | lit hsel => exact element hsel hop
  | matchTok token hsel => exact element hsel (by simpa using hop)
  | cutToken => cases hrun

theorem HostAccess.dictionaryHolds {s t : State} {e : HostEvent}
    (hs : s.run = .busy → s.op = .encode → s.DictionaryHolds) (h : HostAccess s e t) (hrun : t.run = .busy)
    (hop : t.op = .encode) : t.DictionaryHolds := by
  cases h with
  | writeIn a b hrest => exact absurd hrun hrest
  | writeInLen n hrest => exact absurd hrun hrest
  | ignored => exact hs hrun hop
  | clear => cases hrun
  | encode => exact beginEncode_dictionaryHolds hrun
  | decode => cases hop
  | hardReset => cases hrun

/-- Settles O37: each step of the codec and each access of the host keeps the dictionary. -/
theorem everyStepKeepsTheDictionary : Obligations.EveryStepKeepsTheDictionary := by
  intro s t hs h
  rcases step_cases h with ⟨e, rest, -, ha⟩ | ⟨l, hc⟩
  · exact ha.dictionaryHolds (s := { s with hostIn := rest }) fun hrun hop => { hs hrun hop with }
  · exact hc.dictionaryHolds (s := { s with hostIn := l }) fun hrun hop => { hs hrun hop with }

end Sys2Proof.Machine
end

section
/-! PROOFS. The host's duty to leave its input alone while an operation runs (spec 20_memory.md R66, 43_host_commands.md
R152; log entry 14). -/

namespace Sys2Proof.Machine

theorem planInput_of_busy {s : State} (hrun : s.run = .busy) (t : State) :
    planInput s t = .refuse .inputChangedWhileBusy := if_pos hrun

/-- Settles O20: the plan of either write is the refusal. -/
theorem inputChangeWhileBusyIsRefused : Obligations.InputChangeWhileBusyIsRefused := by
  intro s e rest hrun hin he
  refine step_refused_of_plan ((plan_of_hostIn_cons hin).trans ?_)
  rcases he with ⟨a, b, rfl⟩ | ⟨n, rfl⟩
  · exact planInput_of_busy hrun _
  · exact planInput_of_busy hrun _

end Sys2Proof.Machine
end

section
/-! PROOFS. The words of the instructions (spec 30_encoding.md R72 to R81, R88; 20_memory.md R55): the token's fields as
numbers, the command bytes, and that decoding and encoding undo each other. -/

namespace Sys2Proof.Machine

/-- R55, R76: two bytes make the token as they make the default HASH, low byte first. -/
theorem tokenOfBytes_toNat (lo hi : Byte) : (tokenOfBytes lo hi).toNat = lo.toNat + 256 * hi.toNat :=
  packPrefix_toNat lo hi

theorem tokenLow_toNat (t : Token) : (tokenLow t).toNat = t.toNat % 256 := BitVec.toNat_setWidth 8 t

theorem tokenHigh_toNat (t : Token) : (tokenHigh t).toNat = t.toNat / 256 := by
  have := t.isLt
  rw [tokenHigh, BitVec.toNat_setWidth, BitVec.toNat_ushiftRight, Nat.shiftRight_eq_div_pow]
  omega

theorem tokenLen_eq (t : Token) : tokenLen t = t.toNat / 8192 + 3 := by
  rw [tokenLen, BitVec.toNat_ushiftRight, Nat.shiftRight_eq_div_pow]

theorem tokenOff_toNat (t : Token) : (tokenOff t).toNat = t.toNat % 8192 := by
  have hmask : (t &&& 0x1FFF).toNat = t.toNat % 2 ^ 13 := by
    rw [BitVec.toNat_and]
    exact Nat.and_two_pow_sub_one_eq_mod t.toNat 13
  rw [tokenOff, BitVec.toNat_setWidth, hmask]
  exact Nat.mod_mod _ _

/-- R77: the token of a match, as a number. -/
theorem tokenOf_toNat {len : Nat} (off : WinIx) (hmax : len ≤ 10) :
    (tokenOf len off).toNat = (len - 3) * 8192 + off.toNat := by
  have hoff : (off.setWidth 16).toNat = off.toNat := BitVec.toNat_setWidth_of_le (by decide)
  have hlen : (BitVec.ofNat 16 (len - 3) <<< 13).toNat = (len - 3) <<< 13 := by
    rw [BitVec.toNat_shiftLeft, BitVec.toNat_ofNat, Nat.shiftLeft_eq, Nat.shiftLeft_eq]
    omega
  rw [tokenOf, BitVec.toNat_or, hoff, hlen, ← Nat.shiftLeft_add_eq_or_of_lt off.isLt, Nat.shiftLeft_eq]

/-- A token's two bytes make it again. -/
theorem tokenOfBytes_low_high (t : Token) : tokenOfBytes (tokenLow t) (tokenHigh t) = t := packPrefix_low_high t

theorem tokenLow_tokenOfBytes (lo hi : Byte) : tokenLow (tokenOfBytes lo hi) = lo := by
  apply BitVec.eq_of_toNat_eq
  rw [tokenLow_toNat, tokenOfBytes_toNat]
  omega

theorem tokenHigh_tokenOfBytes (lo hi : Byte) : tokenHigh (tokenOfBytes lo hi) = hi := by
  apply BitVec.eq_of_toNat_eq
  rw [tokenHigh_toNat, tokenOfBytes_toNat]
  omega

/-- A token always says a length of 3 to 10 (R27(b), R76). -/
theorem tokenLen_bounds (t : Token) : 3 ≤ tokenLen t ∧ tokenLen t ≤ 10 := by
  have := t.isLt
  rw [tokenLen_eq]
  omega

theorem tokenLen_tokenOf {len : Nat} (off : WinIx) (hmin : 3 ≤ len) (hmax : len ≤ 10) :
    tokenLen (tokenOf len off) = len := by
  rw [tokenLen_eq, tokenOf_toNat off hmax]
  omega

theorem tokenOff_tokenOf {len : Nat} (off : WinIx) (hmax : len ≤ 10) : tokenOff (tokenOf len off) = off := by
  apply BitVec.eq_of_toNat_eq
  rw [tokenOff_toNat, tokenOf_toNat off hmax]
  omega

/-- A token is that of its fields. -/
theorem tokenOf_fields (t : Token) : tokenOf (tokenLen t) (tokenOff t) = t := by
  apply BitVec.eq_of_toNat_eq
  rw [tokenOf_toNat _ (tokenLen_bounds t).2, tokenLen_eq, tokenOff_toNat]
  omega

/-- The byte that the encoder lays down for a command is read as that command (R88). -/
theorem decodeCommand_of_encode {i : Instr} {v : Byte} (hi : i.context = .command) (hv : encode i = [v]) :
    decodeCommand v = i := by
  obtain rfl : (encode i).headD 0 = v := by rw [hv]; rfl
  cases i with
  | flag v => cases hi
  | lit b => cases hi
  | matchTok len off => cases hi
  | cmdNone0407 c => revert c; decide
  | cmdNone080F c => revert c; decide
  | cmdNone101F c => revert c; decide
  | cmdNone203F c => revert c; decide
  | cmdNone407F c => revert c; decide
  | cmdNone80FF c => revert c; decide
  | _ => decide

/-- The byte of the command read from `v` is `v` (R88). -/
theorem encode_decodeCommand : ∀ v : Byte, encode (decodeCommand v) = [v] := by decide

/-- Every operand of a command is legal (R80). -/
theorem wellFormed_of_command {i : Instr} (hi : i.context = .command) : i.WellFormed := by
  cases i with
  | matchTok len off => cases hi
  | _ => trivial

theorem encode_matchTok (len : Nat) (off : WinIx) :
    encode (.matchTok len off) = [tokenLow (tokenOf len off), tokenHigh (tokenOf len off)] := rfl

/-- Settles O1: a command by its byte, a match by its token's fields. -/
theorem decodeOfEncodeIsIdentity : Obligations.DecodeOfEncodeIsIdentity := by
  have ofCommand : ∀ {i : Instr} {v : Byte} (rest : List Byte), i.context = .command → encode i = [v] →
      decode i.context (encode i ++ rest) = .ok i rest := fun {i v} rest hi hv => by
    rw [hi, hv, List.singleton_append, decode, decodeCommand_of_encode hi hv]
  intro i rest hwf
  cases i with
  | flag v => rfl
  | lit b => rfl
  | matchTok len off =>
    obtain ⟨hmin, hmax⟩ := hwf
    change Decoded.ok (.matchTok (tokenLen (tokenOfBytes _ _)) (tokenOff (tokenOfBytes _ _))) rest = _
    rw [tokenOfBytes_low_high, tokenLen_tokenOf off hmin hmax, tokenOff_tokenOf off hmax]
  | _ => exact ofCommand rest rfl rfl

/-- Settles O2: case by case of what the decoder answers. -/
theorem encodeOfDecodeIsIdentity : Obligations.EncodeOfDecodeIsIdentity := by
  intro c bytes rest i h
  have hctx := decode_context h
  cases c with
  | command =>
    cases bytes with
    | nil => cases h
    | cons v l =>
      cases h
      exact ⟨wellFormed_of_command hctx, hctx, by rw [encode_decodeCommand]; rfl⟩
  | flagByte =>
    cases bytes with
    | nil => cases h
    | cons v l => cases h; exact ⟨trivial, rfl, rfl⟩
  | literal =>
    cases bytes with
    | nil => cases h
    | cons b l => cases h; exact ⟨trivial, rfl, rfl⟩
  | token =>
    match bytes, h with
    | lo :: hi :: l, h =>
      cases h
      refine ⟨tokenLen_bounds _, rfl, ?_⟩
      rw [encode_matchTok, tokenOf_fields, tokenLow_tokenOfBytes, tokenHigh_tokenOfBytes]
      rfl

theorem decode_nil (c : Context) : decode c [] = .noByte := by rw [decode]

/-- Two bytes are enough in every context. -/
theorem exists_decode_of_two (c : Context) (lo hi : Byte) (l : List Byte) :
    ∃ i rest, decode c (lo :: hi :: l) = .ok i rest := by
  cases c with
  | command => exact ⟨_, _, rfl⟩
  | flagByte => exact ⟨_, _, rfl⟩
  | literal => exact ⟨_, _, rfl⟩
  | token => exact ⟨_, _, rfl⟩

/-- Settles O3: with one byte only a token is cut in half. -/
theorem onlyMissingBytesAreRejected : Obligations.OnlyMissingBytesAreRejected := by
  intro c bytes
  rcases bytes with - | ⟨b, - | ⟨hi, l⟩⟩
  · simp [decode_nil]
  · cases c with
    | token => simp [decode]
    | _ => simp [decode]
  · obtain ⟨i, rest, hd⟩ := exists_decode_of_two c b hi l
    simp [hd]

/-- Settles O4: each word by the decoder's tables. -/
theorem sampleWordsDecode : Obligations.SampleWordsDecode := by
  unfold Obligations.SampleWordsDecode
  decide

/-- Settles O5: for each of the 256 values the rows are compared. -/
theorem commandRowsPartition : Obligations.CommandRowsPartition := by
  unfold Obligations.CommandRowsPartition
  decide

/-- Settles O6: the token's fields and bytes, each by its formula. -/
theorem tokenFieldFormulas : Obligations.TokenFieldFormulas := by
  refine ⟨fun lo hi => ?_, fun len off _ hmax => ?_⟩
  · rw [tokenLen_eq, tokenOff_toNat, tokenOfBytes_toNat]
    exact ⟨rfl, rfl⟩
  · rw [tokenLow_toNat, tokenHigh_toNat, tokenOf_toNat off hmax]
    exact ⟨rfl, rfl, rfl⟩

end Sys2Proof.Machine
end

section
/-! PROOFS. What a step executes (spec 42_decoder.md R125 to R130, 43_host_commands.md R145), and an element out of place
(30_encoding.md R75; log entry 13). -/

namespace Sys2Proof.Machine

/-- Settles O28: each of the three elements tests its selection first. -/
theorem elementOutOfPlaceStops : Obligations.ElementOutOfPlaceStops := by
  intro i s hi hsel
  cases i with
  | flag v => exact if_neg hsel
  | lit b => exact if_neg hsel
  | matchTok len off => exact if_neg hsel
  | _ => exact absurd rfl hi

/-- The slot loop's increment, for any element (R125, R128). -/
theorem afterExec_of_element {i : Instr} (hi : i.context ≠ .command) (t : State) :
    afterExec i t = if i.context ≠ .flagByte ∧ t.run = .busy then nextSlot t else t := by
  cases i with
  | flag v => exact (if_neg fun h => h.1 rfl).symm
  | lit b => simp [afterExec, Instr.context]
  | matchTok len off => simp [afterExec, Instr.context]
  | _ => exact absurd rfl hi

theorem planDecode_of_decode {s : State} {i : Instr} {rest : List Byte} (hip : s.ip < s.inLen)
    (hd : decode (contextAt s) (operandBytes s) = .ok i rest) : planDecode s = .run i s := by
  rw [planDecode, if_neg (Nat.not_le_of_lt hip), hd]

theorem planCodec_of_decode {s : State} (hrun : s.run = .busy) (hop : s.op = .decode) : planCodec s = planDecode s := by
  rw [planCodec, hrun, hop]

/-- Settles O29: the plan runs the decoded instruction, and only an element's slot is counted. -/
theorem stepRunsTheDecodedInstruction : Obligations.StepRunsTheDecodedInstruction := by
  refine ⟨fun s c i rest hin ⟨hrun, hop, hip, hc⟩ hd => ?_, fun s v rest i hin hd => ?_⟩
  · obtain rfl := hc
    have hctx : i.context = contextAt s := decode_context hd
    have hplan : plan s = .run i s := by
      rw [plan_of_hostIn_nil hin, planCodec_of_decode hrun hop, planDecode_of_decode hip hd]
    rw [step, hplan]
    cases hx : exec i s with
    | next t =>
      simp only [hx, afterExec_of_element (hctx ▸ contextAt_ne_command s), hctx]
      rfl
    | fault f => simp only [hx]
    | refused r => simp only [hx]
  · obtain rfl : decodeCommand v = i := by cases hd; rfl
    have hplan : plan s = .run (decodeCommand v) { s with hostIn := rest } := plan_of_hostIn_cons hin
    rw [step, hplan]
    cases hx : exec (decodeCommand v) { s with hostIn := rest } with
    | next t => simp only [hx, afterExec_of_command (decodeCommand_context v)]
    | fault f => simp only [hx]
    | refused r => simp only [hx]

end Sys2Proof.Machine
end

section
/-! PROOFS. What a slot of ENCODE lays down (spec 41_encoder.md R114 to R116): the staged payload, the window after a run of
pushes, and the slot with a match. -/

namespace Sys2Proof.Machine

/-- A staged byte follows those staged before it, while `stage` has room (R31). -/
theorem staged_stageByte {s : State} (h : s.stageLen < 16) (b : Byte) : staged (stageByte b s) = staged s ++ [b] := by
  have hset : (stageByte b s).stage.toList = s.stage.toList.set s.stageLen b := by simp
  have hlen : s.stageLen < (s.stage.toList.set s.stageLen b).length := by simpa using h
  rw [staged, hset, stageByte_stageLen, ← List.take_concat_get' _ _ hlen, List.getElem_set_self, staged,
    List.take_set_of_le le_rfl]

theorem staged_congr {s t : State} (hstage : t.stage = s.stage) (hlen : t.stageLen = s.stageLen) :
    staged t = staged s := by
  rw [staged, staged, hstage, hlen]

theorem winByte_pushAll_concat (l : List Byte) (b : Byte) (s : State) (j : WinIx) :
    winByte (pushAll (l ++ [b]) s) j =
      if j = s.cur + BitVec.ofNat 13 l.length then b else winByte (pushAll l s) j := by
  rw [pushAll_append, pushAll, pushAll, winByte_push, pushAll_cur]

/-- Where a run of pushes is no longer than the window, byte `k` stays at `cur + k` (R92). -/
theorem winByte_pushAll_stored {l : List Byte} {k : Nat} (hk : k < l.length) (hl : l.length ≤ Config.windowSize)
    (s : State) : winByte (pushAll l s) (s.cur + BitVec.ofNat 13 k) = l[k] := by
  induction l using List.reverseRecOn with
  | nil => exact absurd hk (Nat.not_lt_zero k)
  | append_singleton l b ih =>
    rw [List.length_append, List.length_singleton] at hk hl
    rw [winByte_pushAll_concat]
    rcases Nat.lt_succ_iff_lt_or_eq.mp hk with hlt | rfl
    · have hne : s.cur + BitVec.ofNat 13 k ≠ s.cur + BitVec.ofNat 13 l.length := fun h =>
        ofNat_ne_of_lt hlt (by omega) ((BitVec.add_right_inj s.cur).mp h)
      rw [if_neg hne, ih hlt (Nat.le_of_succ_le hl), List.getElem_append_left hlt]
    · rw [if_pos rfl, List.getElem_concat_length rfl]

theorem winByte_pushAll_other {l : List Byte} {s : State} {j : WinIx}
    (hj : ∀ k, k < l.length → j ≠ s.cur + BitVec.ofNat 13 k) : winByte (pushAll l s) j = winByte s j := by
  induction l using List.reverseRecOn with
  | nil => rfl
  | append_singleton l b ih =>
    rw [List.length_append, List.length_singleton] at hj
    rw [winByte_pushAll_concat, if_neg (hj _ (Nat.lt_succ_self _)), ih fun k hk => hj k (Nat.lt_succ_of_lt hk)]

/-- The input bytes a match of length `len` covers (R115). -/
def matchedBytes (s : State) (len : Nat) : List Byte := (List.range len).map fun k => inByte s (s.pos + k)

@[simp] theorem matchedBytes_length (s : State) (len : Nat) : (matchedBytes s len).length = len := by
  simp [matchedBytes]

/-- A match may stage its token after its pushes as well as before them. -/
theorem encMatch_eq (len : Nat) (off : WinIx) (s : State) :
    encMatch len off s =
      { stageByte (tokenHigh (tokenOf len off))
          (stageByte (tokenLow (tokenOf len off)) (pushAll (matchedBytes s len) s)) with
        pos := s.pos + len } := by
  rw [← pushAll_stageByte, ← pushAll_stageByte]
  rfl

theorem winByte_encMatch (len : Nat) (off : WinIx) (s : State) :
    winByte (encMatch len off s) = winByte (pushAll (matchedBytes s len) s) := by
  rw [encMatch_eq]
  exact winByte_congr rfl rfl

/-- R115: a match stages its token's two bytes. -/
theorem staged_encMatch {s : State} (h : s.stageLen < 15) (len : Nat) (off : WinIx) :
    staged (encMatch len off s) = staged s ++ encode (.matchTok len off) := by
  have hroom : (stageByte (tokenLow (tokenOf len off)) s).stageLen < 16 := Nat.succ_lt_succ h
  calc staged (encMatch len off s)
    _ = staged (stageByte (tokenHigh (tokenOf len off)) (stageByte (tokenLow (tokenOf len off)) s)) :=
      staged_congr (pushAll_stage _ _) (pushAll_stageLen _ _)
    _ = staged s ++ encode (.matchTok len off) := by
      rw [staged_stageByte hroom, staged_stageByte (Nat.lt_succ_of_lt h), List.append_assoc, encode_matchTok]
      rfl

/-- R115: a match pushes the input it covers, stages two bytes, and leaves the flag byte alone. -/
theorem encMatch_frame (len : Nat) (off : WinIx) (s : State) :
    encMatch len off s = { s with
      win := (encMatch len off s).win, cur := s.cur + BitVec.ofNat 13 len, cnt := s.cnt + len,
      idx := (encMatch len off s).idx, pos := s.pos + len, stage := (encMatch len off s).stage,
      stageLen := s.stageLen + 2 } := by
  have hpush := pushAll_frame (matchedBytes s len) s
  rw [matchedBytes_length] at hpush
  rw [encMatch_eq, hpush]
  rfl

/-- While ENCODE runs undisturbed a step is its step. -/
theorem step_of_running_encode {s : State} (h : s.Running .encode) : step s = .next (encStep s) := by
  obtain ⟨hrun, hop, hin⟩ := h
  apply step_of_plan_move
  rw [plan_of_hostIn_nil hin, planCodec, hrun, hop]

theorem encStep_of_slot {s : State} (hslot : s.slot < Config.slots) (hpos : s.pos < s.inLen) :
    encStep s = encSlot s := if_pos ⟨hslot, hpos⟩

theorem encSlot_of_match {s : State} {len : Nat} {off : WinIx} (h : lookup s = some (len, off)) :
    encSlot s = nextSlot (encMatch len off s) := by rw [encSlot, h]

/-- Settles O47: the step is the slot, and the slot is the match. -/
theorem encoderEmitsAMatch : Obligations.EncoderEmitsAMatch := by
  intro s len off hrunning hslot hpos hroom hl
  have hstep : step s = .next (nextSlot (encMatch len off s)) := by
    rw [step_of_running_encode hrunning, encStep_of_slot hslot hpos, encSlot_of_match hl]
  have hlen : len ≤ Config.windowSize := (lookup_length hl).2.trans ((Nat.min_le_left _ _).trans (by decide))
  have hwin : winByte (nextSlot (encMatch len off s)) = winByte (pushAll (matchedBytes s len) s) :=
    winByte_encMatch len off s
  refine ⟨_, hstep, staged_encMatch hroom len off, fun k hk => ?_, fun j hj => ?_, ?_⟩
  · rw [hwin, winByte_pushAll_stored (by simpa using hk) (by simpa using hlen)]
    simp [matchedBytes]
  · rw [hwin, winByte_pushAll_other (by simpa using hj)]
  · exact congrArg nextSlot (encMatch_frame len off s)

end Sys2Proof.Machine
end

section
/-! PROOFS. Runs from a command to the end of its operation (spec 43_host_commands.md R145, R153), and the size of the
decoded output (30_encoding.md R89, 42_decoder.md R138). -/

namespace Sys2Proof.Machine

/-- A run is its first step, then the run from there. -/
theorem core_run_succ {M : Host.Core} {k : Nat} {s t : M.State} :
    M.run (k + 1) s = .next t ↔ ∃ u, M.step s = .next u ∧ M.run k u = .next t := by
  rw [Host.Core.run]
  cases M.step s with
  | next u => simp
  | fault r => simp
  | refused r => simp

theorem run_succ {k : Nat} {s t : State} :
    Host.Core.run Sys2Proof.core (k + 1) s = .next t ↔
      ∃ u, step s = .next u ∧ Host.Core.run Sys2Proof.core k u = .next t := core_run_succ (M := Sys2Proof.core)

/-- What every step keeps, a run keeps. -/
theorem run_keeps {p : State → Prop} (hstep : ∀ u v, p u → step u = .next v → p v) {k : Nat} {s t : State}
    (hs : p s) (h : Host.Core.run Sys2Proof.core k s = .next t) : p t := by
  induction k generalizing s with
  | zero => cases h; exact hs
  | succ k ih =>
    obtain ⟨u, hu, hrun⟩ := run_succ.mp h
    exact ih (hstep s u hs hu) hrun

/-- What holds after a run's first step and is kept by every step holds where the run is over. -/
theorem endsAt_keeps {p : State → Prop} (hstep : ∀ u v, p u → step u = .next v → p v) {s t u : State}
    (hfirst : step s = .next u) (hu : p u) (h : s.EndsAt t) : p t := by
  obtain ⟨_, k, -, hrun, -⟩ := h
  obtain ⟨v, hv, hrest⟩ := run_succ.mp hrun
  cases hfirst.symm.trans hv
  exact run_keeps hstep hu hrest

/-- The first step of a run executes its command (R145). -/
theorem step_of_commanded {s t : State} {v : Byte} (h : s.Commanded v)
    (hx : exec (decodeCommand v) { s with hostIn := [] } = .next t) : step s = .next t := by
  obtain ⟨-, hin⟩ := h
  rw [step_next_iff_yields, plan_of_hostIn_cons hin, planHost_writeCmd_yields]
  exact hx

/-- Outside BUSY a command that starts an operation is accepted and starts it (R145). -/
theorem command_of_not_busy {s : State} (h : s.run ≠ .busy) (o : OpCode) (start : State → State) :
    command o start s = .next (start (accept o s)) := by rw [command_eq, if_neg h]

theorem step_of_commanded_encode {s : State} (h : s.Commanded 2) :
    step s = .next (beginEncode (accept .encode { s with hostIn := [] })) :=
  step_of_commanded h (command_of_not_busy (s := { s with hostIn := [] }) h.1 .encode beginEncode)

theorem step_of_commanded_decode {s : State} (h : s.Commanded 3) :
    step s = .next (beginDecode (accept .decode { s with hostIn := [] })) :=
  step_of_commanded h (command_of_not_busy (s := { s with hostIn := [] }) h.1 .decode beginDecode)

/-- DECODE of `n` bytes: a flag byte gives nothing, and each byte after the first at most 5 (R89, R138). -/
structure State.DecodesWithin (n : Nat) (s : State) : Prop where
  noHost : s.hostIn = []
  op_eq : s.op = .decode
  inLen_eq : s.inLen = n
  ip_le : s.ip ≤ n
  out_le : s.outLen ≤ 5 * (s.ip - 1)

/-- A slot's payload does not stand at the start of the stream (R128). -/
theorem ip_pos_of_contextAt {s : State} (h : contextAt s ≠ .flagByte) : 0 < s.ip := by
  unfold contextAt at h
  split at h
  · exact absurd rfl h
  · omega

theorem step_decodesWithin {n : Nat} {s t : State} (hs : s.DecodesWithin n) (h : step s = .next t) :
    t.DecodesWithin n := by
  obtain ⟨hin, hop, hlen, hip, hout⟩ := id hs
  cases codecStep_of_step hin h with
  | wait => exact hs
  | encode _ henc => simp [hop] at henc
  | decodeEnd => exact { hs with }
  | flag hsel =>
    obtain ⟨-, -, hlt, -⟩ := hsel
    exact { hs with
      ip_le := hlen ▸ hlt
      out_le := hout.trans (Nat.mul_le_mul_left 5 (Nat.sub_le_sub_right (Nat.le_succ _) 1)) }
  | lit hsel =>
    obtain ⟨-, -, hlt, hctx⟩ := hsel
    have hpos := ip_pos_of_contextAt (s := s) (by simp [hctx])
    refine { hs with ip_le := hlen ▸ hlt, out_le := ?_ }
    change (s.out ++ [inByte s s.ip]).length ≤ 5 * (s.ip + 1 - 1)
    rw [List.length_append, List.length_singleton]
    have : s.out.length ≤ 5 * (s.ip - 1) := hout
    omega
  | matchTok token hsel _ htwo =>
    obtain ⟨-, -, hlt, hctx⟩ := hsel
    have hpos := ip_pos_of_contextAt (s := s) (by simp [hctx])
    have hmax := (tokenLen_bounds token).2
    have hout : s.out.length ≤ 5 * (s.ip - 1) := hout
    rw [copyBytes_frame]
    refine { hs with ip_le := ?_, out_le := ?_ }
    · change s.ip + 2 ≤ n
      omega
    · change (copyBytes (tokenLen token) (loadCopy _ (tokenOff token) (advanceIp 2 s))).out.length ≤ 5 * (s.ip + 2 - 1)
      rw [copyBytes_out_length, loadCopy_out, advanceIp_out]
      omega
  | cutToken => exact { hs with }

/-- Settles O53: a run keeps the bound, and ends with `ip` at most `IN_LEN`. -/
theorem decodeOutputSize : Obligations.DecodeOutputSize := by
  intro s t hcmd hend _
  have hstart : (beginDecode (accept .decode { s with hostIn := [] })).DecodesWithin s.inLen :=
    ⟨rfl, rfl, rfl, Nat.zero_le _, Nat.zero_le _⟩
  obtain ⟨-, -, -, hip, hout⟩ :=
    endsAt_keeps (fun u v hu huv => step_decodesWithin hu huv) (step_of_commanded_decode hcmd) hstart hend
  exact ⟨fun _ => by omega, fun _ => by omega⟩

end Sys2Proof.Machine
end

section
/-! PROOFS. The grammar of the streams that decode without error (spec 30_encoding.md R84, 42_decoder.md R128, R134). -/

namespace Sys2Proof.Machine

theorem inSlots_le {f : Byte} {i k : Nat} {l : List Byte} (h : InSlots f i k l) : i ≤ k := by
  induction h with
  | nil i => exact le_rfl
  | lit i k b rest _ _ ih => exact Nat.le_of_succ_le ih
  | matchTok i k lo hi rest _ _ ih => exact Nat.le_of_succ_le ih

/-- No slots have no payload. -/
theorem inSlots_self_iff {f : Byte} {i : Nat} {l : List Byte} : InSlots f i i l ↔ l = [] := by
  refine ⟨fun h => ?_, fun h => h ▸ .nil i⟩
  cases h with
  | nil => rfl
  | lit _ _ b rest _ h => exact absurd (inSlots_le h) (Nat.not_succ_le_self i)
  | matchTok _ _ lo hi rest _ h => exact absurd (inSlots_le h) (Nat.not_succ_le_self i)

/-- The slots from `i` to `k - 1` that hold no byte are none. -/
theorem inSlots_nil_iff {f : Byte} {i k : Nat} : InSlots f i k [] ↔ i = k :=
  ⟨fun h => by cases h; rfl, fun h => h ▸ .nil i⟩

theorem inSlots_lit_iff {f : Byte} {i k : Nat} {b : Byte} {rest : List Byte} (hbit : f.getLsbD i = true) :
    InSlots f i k (b :: rest) ↔ InSlots f (i + 1) k rest := by
  refine ⟨fun h => ?_, .lit i k b rest hbit⟩
  cases h with
  | lit _ _ _ _ _ h => exact h
  | matchTok _ _ _ _ _ hno _ => simp [hbit] at hno

theorem inSlots_matchTok_iff {f : Byte} {i k : Nat} {lo hi : Byte} {rest : List Byte} (hbit : f.getLsbD i = false) :
    InSlots f i k (lo :: hi :: rest) ↔ InSlots f (i + 1) k rest := by
  refine ⟨fun h => ?_, .matchTok i k lo hi rest hbit⟩
  cases h with
  | lit _ _ _ _ hyes _ => simp [hbit] at hyes
  | matchTok _ _ _ _ _ _ h => exact h

/-- A token cut in half is the payload of no slots. -/
theorem not_inSlots_cut {f : Byte} {i k : Nat} {b : Byte} (hbit : f.getLsbD i = false) : ¬ InSlots f i k [b] := by
  intro h
  cases h with
  | lit _ _ _ _ hyes _ => simp [hbit] at hyes

/-- `bytes` can follow in the grammar of R84 from slot `i` of a block with flag byte `f` on. -/
def InBlock (f : Byte) (i : Nat) (bytes : List Byte) : Prop :=
  ∃ k payload rest, bytes = payload ++ rest ∧ InSlots f i k payload ∧ (k ≤ 7 ∧ rest = [] ∨ k = 8 ∧ InGrammar rest)

/-- The grammar from a place in the stream on, as `decodeFrom` names it. -/
def InGrammarFrom : Option (Byte × Nat) → List Byte → Prop
  | none, bytes => InGrammar bytes
  | some (f, i), bytes => InBlock f i bytes

/-- A non-empty stream of the grammar is a flag byte and its block. -/
theorem inGrammar_cons_iff {f : Byte} {bytes : List Byte} : InGrammar (f :: bytes) ↔ InBlock f 0 bytes := by
  refine ⟨fun h => ?_, ?_⟩
  · cases h with
    | last _ k _ hk hslots => exact ⟨k, bytes, [], (List.append_nil _).symm, hslots, .inl ⟨hk, rfl⟩⟩
    | full _ payload rest hslots hrest => exact ⟨8, payload, rest, rfl, hslots, .inr ⟨rfl, hrest⟩⟩
  · rintro ⟨k, payload, rest, rfl, hslots, ⟨hk, rfl⟩ | ⟨rfl, hrest⟩⟩
    · rw [List.append_nil]
      exact .last f k payload hk hslots
    · exact .full f payload rest hslots hrest

/-- A complete block is followed by the next one (R84, R128). -/
theorem inBlock_iff_inGrammarFrom {f : Byte} {i : Nat} (hi : i < 8) {bytes : List Byte} :
    InBlock f (i + 1) bytes ↔ InGrammarFrom (slotAfter f i) bytes := by
  rw [slotAfter]
  split
  · rfl
  · obtain rfl : i = 7 := by simp only [Config.slots] at *; omega
    refine ⟨?_, fun h => ⟨8, [], bytes, rfl, .nil 8, .inr ⟨rfl, h⟩⟩⟩
    rintro ⟨k, payload, rest, rfl, hslots, ⟨hk, -⟩ | ⟨rfl, hrest⟩⟩
    · exact absurd (inSlots_le hslots) (by omega)
    · rw [inSlots_self_iff.mp hslots]
      exact hrest

/-- What remains of an unfinished block begins with the payload of its next slot. -/
theorem inBlock_cons_iff {f : Byte} {i : Nat} (hi : i < 8) {b : Byte} {bytes : List Byte} :
    InBlock f i (b :: bytes) ↔
      ∃ k payload rest, bytes = payload ++ rest ∧ InSlots f i k (b :: payload) ∧
        (k ≤ 7 ∧ rest = [] ∨ k = 8 ∧ InGrammar rest) := by
  refine ⟨?_, fun ⟨k, payload, rest, heq, hslots, hend⟩ => ⟨k, b :: payload, rest, by rw [heq]; rfl, hslots, hend⟩⟩
  rintro ⟨k, payload, rest, heq, hslots, hend⟩
  cases payload with
  | nil =>
    obtain rfl := inSlots_nil_iff.mp hslots
    rcases hend with ⟨-, rfl⟩ | ⟨rfl, -⟩
    · cases heq
    · exact absurd hi (Nat.lt_irrefl 8)
  | cons c payload =>
    cases heq
    exact ⟨k, payload, rest, rfl, hslots, hend⟩

theorem inBlock_lit_iff {f : Byte} {i : Nat} (hi : i < 8) (hbit : f.getLsbD i = true) {b : Byte} {bytes : List Byte} :
    InBlock f i (b :: bytes) ↔ InBlock f (i + 1) bytes := by
  simp only [inBlock_cons_iff hi, inSlots_lit_iff hbit]
  rfl

theorem inBlock_matchTok_iff {f : Byte} {i : Nat} (hi : i < 8) (hbit : f.getLsbD i = false) {lo up : Byte}
    {bytes : List Byte} : InBlock f i (lo :: up :: bytes) ↔ InBlock f (i + 1) bytes := by
  rw [inBlock_cons_iff hi]
  constructor
  · rintro ⟨k, payload, rest, heq, hslots, hend⟩
    cases payload with
    | nil => exact absurd hslots (not_inSlots_cut hbit)
    | cons c payload =>
      cases heq
      exact ⟨k, payload, rest, rfl, (inSlots_matchTok_iff hbit).mp hslots, hend⟩
  · rintro ⟨k, payload, rest, rfl, hslots, hend⟩
    exact ⟨k, up :: payload, rest, rfl, (inSlots_matchTok_iff hbit).mpr hslots, hend⟩

/-- A token cut in half is in no block (R81, R84). -/
theorem not_inBlock_cut {f : Byte} {i : Nat} (hi : i < 8) (hbit : f.getLsbD i = false) {b : Byte} :
    ¬ InBlock f i [b] := by
  rw [inBlock_cons_iff hi]
  rintro ⟨k, payload, rest, heq, hslots, -⟩
  obtain ⟨rfl, -⟩ := List.append_eq_nil_iff.mp heq.symm
  exact not_inSlots_cut hbit hslots

/-- A place in a stream is before a flag byte or at one of the 8 slots of a block. -/
def SlotInRange : Option (Byte × Nat) → Prop
  | none => True
  | some (_, i) => i < 8

theorem slotAfter_inRange (f : Byte) (i : Nat) : SlotInRange (slotAfter f i) := by
  rw [slotAfter]
  split
  · assumption
  · trivial

/-- The end of the input is legal at every place (R82, R136). -/
theorem inGrammarFrom_nil {slot : Option (Byte × Nat)} (h : SlotInRange slot) : InGrammarFrom slot [] := by
  cases slot with
  | none => exact .empty
  | some p => exact ⟨p.2, [], [], rfl, .nil p.2, .inl ⟨Nat.le_of_lt_succ h, rfl⟩⟩

/-- From any place on, what decodes without error is what the grammar allows there (R84, R133, R134). -/
theorem decodeFrom_done_iff (fill : Byte) (bytes : List Byte) (slot : Option (Byte × Nat)) (out : List Byte)
    (hslot : SlotInRange slot) :
    (∃ result, decodeFrom fill bytes slot out = .done result) ↔ InGrammarFrom slot bytes := by
  induction bytes, slot, out using decodeFrom.induct fill with
  | case1 slot out => exact iff_of_true ⟨out, by rw [decodeFrom]⟩ (inGrammarFrom_nil hslot)
  | case2 f rest out ih =>
    rw [decodeFrom, ih (Nat.zero_lt_succ 7)]
    exact inGrammar_cons_iff.symm
  | case3 b f i out hbit =>
    have hnext : InBlock f (i + 1) [] :=
      (inBlock_iff_inGrammarFrom hslot).mpr (inGrammarFrom_nil (slotAfter_inRange f i))
    exact iff_of_true ⟨out ++ [b], by rw [decodeFrom, if_pos hbit]⟩ ((inBlock_lit_iff hslot hbit).mpr hnext)
  | case4 b f i out hbit =>
    refine iff_of_false ?_ (not_inBlock_cut hslot (Bool.eq_false_of_not_eq_true hbit))
    rw [decodeFrom, if_neg hbit]
    exact nofun
  | case5 b hi rest f i out hbit ih =>
    rw [decodeFrom, if_pos hbit, ih (slotAfter_inRange f i), ← inBlock_iff_inGrammarFrom hslot]
    exact (inBlock_lit_iff hslot hbit).symm
  | case6 b hi rest f i out hbit ih =>
    rw [decodeFrom, if_neg hbit, ih (slotAfter_inRange f i), ← inBlock_iff_inGrammarFrom hslot]
    exact (inBlock_matchTok_iff hslot (Bool.eq_false_of_not_eq_true hbit)).symm

/-- Settles O57: a stream starts before a flag byte. -/
theorem grammarIsWhatDecodes : Obligations.GrammarIsWhatDecodes :=
  fun fill bytes => decodeFrom_done_iff fill bytes none [] trivial

end Sys2Proof.Machine
end

section
/-! PROOFS. The expansion of SLOTS (spec 30_encoding.md R85, R86): its blocks, their flag bytes, and that it is a well-formed
listing. -/

namespace Sys2Proof.Machine

/-- A block that the elements `more` fill up is closed after them (R86(c)). -/
theorem expandSlotsFrom_full {acc more : List Instr} (rest : List Instr) (hne : more ≠ [])
    (hlen : acc.length + more.length = Config.slots) :
    expandSlotsFrom acc (more ++ rest) = expandBlock (acc ++ more) ++ expandSlots rest := by
  induction more generalizing acc with
  | nil => exact absurd rfl hne
  | cons e more ih =>
    rw [List.length_cons] at hlen
    rw [List.cons_append, expandSlotsFrom]
    by_cases hmore : more = []
    · subst hmore
      exact if_pos hlen
    · have hpos : 0 < more.length := List.length_pos_iff_ne_nil.mpr hmore
      rw [if_neg (by omega), ih hmore (by rw [List.length_append, List.length_singleton]; omega), List.append_assoc]
      rfl

/-- A last block of fewer than 8 elements is closed at the end (R86(c)). -/
theorem expandSlotsFrom_short {acc more : List Instr} (hne : acc ++ more ≠ [])
    (hlen : acc.length + more.length < Config.slots) : expandSlotsFrom acc more = expandBlock (acc ++ more) := by
  induction more generalizing acc with
  | nil =>
    rw [List.append_nil] at hne ⊢
    rw [expandSlotsFrom, if_neg (by simpa using hne)]
  | cons e more ih =>
    rw [List.length_cons] at hlen
    rw [expandSlotsFrom, if_neg (by omega), ih (by simp) (by rw [List.length_append, List.length_singleton]; omega),
      List.append_assoc]
    rfl

/-- SLOTS begins with the block of its first 8 elements, or of all of them if they are fewer. -/
theorem expandSlots_append {block rest : List Instr} (hne : block ≠ []) (hlen : block.length ≤ Config.slots)
    (hlast : block.length = Config.slots ∨ rest = []) :
    expandSlots (block ++ rest) = expandBlock block ++ expandSlots rest := by
  by_cases hfull : block.length = Config.slots
  · exact expandSlotsFrom_full (acc := []) rest hne (by simpa using hfull)
  · obtain rfl := hlast.resolve_left hfull
    rw [List.append_nil, expandSlots, expandSlotsFrom_short (acc := []) hne (by simpa using lt_of_le_of_ne hlen hfull)]
    exact (List.append_nil _).symm

/-- The first 8 elements make a full block, or they are all. -/
theorem first_slots_last (els : List Instr) :
    (els.take Config.slots).length = Config.slots ∨ els.drop Config.slots = [] := by
  rw [List.length_take, List.drop_eq_nil_iff]
  omega

theorem expandSlots_first {els : List Instr} (hne : els ≠ []) :
    expandSlots els = expandBlock (els.take Config.slots) ++ expandSlots (els.drop Config.slots) := by
  rw [← expandSlots_append (by simp [hne]) (List.length_take_le _ _) (first_slots_last els), List.take_append_drop]

/-- Induction over the blocks of SLOTS. -/
theorem slots_induction {p : List Instr → Prop} (hnil : p [])
    (hblock : ∀ block rest, block ≠ [] → block.length ≤ Config.slots →
      block.length = Config.slots ∨ rest = [] → p rest → p (block ++ rest))
    (els : List Instr) : p els := by
  induction hn : els.length using Nat.strong_induction_on generalizing els with
  | h n ih =>
    by_cases hels : els = []
    · rw [hels]
      exact hnil
    · have hpos : 0 < els.length := List.length_pos_iff_ne_nil.mpr hels
      have hrest : (els.drop Config.slots).length < n := by
        rw [List.length_drop]
        simp only [Config.slots]
        omega
      rw [← List.take_append_drop Config.slots els]
      exact hblock _ _ (by simp [hels]) (List.length_take_le _ _) (first_slots_last els) (ih _ hrest _ rfl)

/-- Bit `i + k` of `v` says whether element `k` is a literal (R86(a)). -/
def FlagAgrees (v : Byte) : Nat → List Instr → Prop
  | _, [] => True
  | i, e :: rest => v.getLsbD i = decide (e.context = .literal) ∧ FlagAgrees v (i + 1) rest

/-- The bits of a flag byte below its first element's are 0. -/
theorem blockFlag_getLsbD_of_lt (els : List Instr) {i j : Nat} (h : j < i) : (blockFlag els i).getLsbD j = false := by
  induction els generalizing i with
  | nil => simp [blockFlag]
  | cons e rest ih =>
    rw [blockFlag, BitVec.getLsbD_or, ih (Nat.lt_succ_of_lt h), Bool.or_false]
    split
    · simp [h]
    · simp

theorem blockFlag_getLsbD_self (e : Instr) (rest : List Instr) {i : Nat} (hi : i < 8) :
    (blockFlag (e :: rest) i).getLsbD i = decide (e.context = .literal) := by
  rw [blockFlag, BitVec.getLsbD_or, blockFlag_getLsbD_of_lt rest (Nat.lt_succ_self i), Bool.or_false]
  split <;> simp [*]

theorem flagAgrees_of_bits {v w : Byte} {i : Nat} {els : List Instr}
    (h : ∀ j, i ≤ j → j < 8 → v.getLsbD j = w.getLsbD j) (hlen : i + els.length ≤ 8) (hw : FlagAgrees w i els) :
    FlagAgrees v i els := by
  induction els generalizing i with
  | nil => trivial
  | cons e rest ih =>
    obtain ⟨hbit, hrest⟩ := hw
    rw [List.length_cons] at hlen
    exact ⟨(h i le_rfl (by omega)).trans hbit, ih (fun j hj => h j (by omega)) (by omega) hrest⟩

/-- The flag byte of BLOCK agrees with its elements (R86(a)). -/
theorem flagAgrees_blockFlag {els : List Instr} {i : Nat} (hlen : i + els.length ≤ 8) :
    FlagAgrees (blockFlag els i) i els := by
  induction els generalizing i with
  | nil => trivial
  | cons e rest ih =>
    rw [List.length_cons] at hlen
    refine ⟨blockFlag_getLsbD_self e rest (by omega),
      flagAgrees_of_bits (fun j hj hj8 => ?_) (by omega) (ih (by omega))⟩
    rw [blockFlag, BitVec.getLsbD_or]
    split
    · have : j - i ≠ 0 := by omega
      simp [this]
    · simp

/-- The elements of a block are well-formed lines after its flag byte, and what follows begins anew (R85). -/
theorem listingWellFormed_elements {v : Byte} {i : Nat} {els : List Instr} {rest : List Line}
    (hels : ∀ e ∈ els, IsElement e) (hlen : i + els.length ≤ Config.slots) (hflag : FlagAgrees v i els)
    (hrest : ∀ slot, listingWellFormed slot rest = true) :
    listingWellFormed (some (v, i)) (els.map .element ++ rest) = true := by
  induction els generalizing i with
  | nil => exact hrest _
  | cons e els ih =>
    obtain ⟨he, hels⟩ := List.forall_mem_cons.mp hels
    obtain ⟨hbit, hflag⟩ := hflag
    rw [List.length_cons] at hlen
    have hnext : listingWellFormed (some (v, i + 1)) (els.map .element ++ rest) = true := ih hels (by omega) hflag
    have htakes : slotTakes (decide (e.context = .literal)) (some (v, i)) = true := by
      rw [slotTakes, hbit, decide_eq_true (by omega : i < Config.slots), beq_self_eq_true, Bool.and_self]
    cases e with
    | lit b => exact Bool.and_eq_true_iff.mpr ⟨htakes, hnext⟩
    | matchTok len off =>
      exact Bool.and_eq_true_iff.mpr ⟨Bool.and_eq_true_iff.mpr ⟨htakes, decide_eq_true he⟩, hnext⟩
    | _ => exact he.elim

/-- Settles O58: block by block, from any slot. -/
theorem slotsExpandToAWellFormedListing : Obligations.SlotsExpandToAWellFormedListing := by
  intro els hels
  suffices h : ∀ slot, listingWellFormed slot (expandSlots els) = true from h none
  induction els using slots_induction with
  | hnil => exact fun slot => rfl
  | hblock block rest hne hlen hlast ih =>
    obtain ⟨hblock, hrest⟩ := List.forall_mem_append.mp hels
    intro slot
    have hroom : 0 + block.length ≤ Config.slots := by rwa [Nat.zero_add]
    rw [expandSlots_append hne hlen hlast, expandBlock, List.cons_append, listingWellFormed]
    exact listingWellFormed_elements hblock hroom (flagAgrees_blockFlag hroom) (ih hrest)

end Sys2Proof.Machine
end

section
/-! PROOFS. What the stream of SLOTS decodes to (spec 30_encoding.md R71, R76, R84, R86; 42_decoder.md R128 to R130): the
payload of each element first, then the blocks. -/

namespace Sys2Proof.Machine

theorem decodeFrom_nil (fill : Byte) (slot : Option (Byte × Nat)) (out : List Byte) :
    decodeFrom fill [] slot out = .done out := by rw [decodeFrom]

theorem decodeFrom_lit {fill f b : Byte} {i : Nat} (hbit : f.getLsbD i = true) (rest out : List Byte) :
    decodeFrom fill (b :: rest) (some (f, i)) out = decodeFrom fill rest (slotAfter f i) (out ++ [b]) := by
  cases rest with
  | nil => rw [decodeFrom_nil, decodeFrom, if_pos hbit]
  | cons c rest => rw [decodeFrom, if_pos hbit]

/-- The bytes of a token give its fields (R76). -/
theorem tokenLen_tokenOfBytes (lo hi : Byte) : tokenLen (tokenOfBytes lo hi) = (hi >>> 5).toNat + 3 := by
  rw [tokenLen_eq, tokenOfBytes_toNat, BitVec.toNat_ushiftRight, Nat.shiftRight_eq_div_pow]
  omega

theorem tokenOff_tokenOfBytes (lo hi : Byte) : tokenOff (tokenOfBytes lo hi) = hi.setWidth 5 ++ lo := by
  apply BitVec.eq_of_toNat_eq
  rw [tokenOff_toNat, tokenOfBytes_toNat, BitVec.toNat_append, ← Nat.shiftLeft_add_eq_or_of_lt lo.isLt,
    Nat.shiftLeft_eq, BitVec.toNat_setWidth]
  omega

theorem decodeFrom_matchTok {fill f : Byte} {i len : Nat} (off : WinIx) (hbit : f.getLsbD i = false) (hmin : 3 ≤ len)
    (hmax : len ≤ 10) (rest out : List Byte) :
    decodeFrom fill (encode (.matchTok len off) ++ rest) (some (f, i)) out =
      decodeFrom fill rest (slotAfter f i) (copyHistory fill len off out) := by
  rw [encode_matchTok, List.cons_append, List.singleton_append, decodeFrom, if_neg (by simp [hbit]),
    ← tokenLen_tokenOfBytes (tokenLow (tokenOf len off)), ← tokenOff_tokenOfBytes, tokenOfBytes_low_high,
    tokenLen_tokenOf off hmin hmax, tokenOff_tokenOf off hmax]

/-- The place of slot `i`: after the last slot of a block a flag byte comes next (R128). -/
def slotAt (f : Byte) (i : Nat) : Option (Byte × Nat) := if i < Config.slots then some (f, i) else none

/-- The payloads of a block's elements decode to what the elements add (R129, R130). -/
theorem decodeFrom_elements {fill v : Byte} {i : Nat} {els : List Instr} (hels : ∀ e ∈ els, IsElement e)
    (hlen : i + els.length ≤ Config.slots) (hflag : FlagAgrees v i els) (rest out : List Byte) :
    decodeFrom fill (els.flatMap encode ++ rest) (slotAt v i) out =
      decodeFrom fill rest (slotAt v (i + els.length)) (els.foldl (applyElement fill) out) := by
  induction els generalizing i out with
  | nil => rfl
  | cons e els ih =>
    obtain ⟨he, hels⟩ := List.forall_mem_cons.mp hels
    obtain ⟨hbit, hflag⟩ := hflag
    rw [List.length_cons] at hlen ⊢
    have hat : slotAt v i = some (v, i) := if_pos (by omega)
    have hafter : slotAfter v i = slotAt v (i + 1) := rfl
    have hsum : i + (els.length + 1) = i + 1 + els.length := by omega
    rw [hat, hsum, List.foldl_cons, ← ih hels (by omega) hflag, List.flatMap_cons, List.append_assoc, ← hafter]
    cases e with
    | lit b => exact decodeFrom_lit hbit _ out
    | matchTok len off => exact decodeFrom_matchTok off hbit he.1 he.2 _ out
    | _ => exact he.elim

theorem listingBytes_append (l m : List Line) : listingBytes (l ++ m) = listingBytes l ++ listingBytes m :=
  List.flatMap_append

theorem listingBytes_expandBlock (els : List Instr) :
    listingBytes (expandBlock els) = blockFlag els 0 :: els.flatMap encode := by
  rw [expandBlock, listingBytes, List.flatMap_cons, List.flatMap_map]
  rfl

/-- Settles O59: block by block, with what was decoded before. -/
theorem slotsDecodeElementByElement : Obligations.SlotsDecodeElementByElement := by
  intro fill els hels
  suffices h : ∀ out, decodeFrom fill (listingBytes (expandSlots els)) none out =
      .done (els.foldl (applyElement fill) out) from h []
  induction els using slots_induction with
  | hnil => exact fun out => by rw [expandSlots, expandSlotsFrom]; rfl
  | hblock block rest hne hlen hlast ih =>
    obtain ⟨hblock, hrest⟩ := List.forall_mem_append.mp hels
    intro out
    have hroom : 0 + block.length ≤ Config.slots := by rwa [Nat.zero_add]
    have hstart : ∀ f, some (f, 0) = slotAt f 0 := fun f => rfl
    rw [expandSlots_append hne hlen hlast, listingBytes_append, listingBytes_expandBlock, List.cons_append, decodeFrom,
      hstart, decodeFrom_elements hblock hroom (flagAgrees_blockFlag hroom), List.foldl_append, Nat.zero_add]
    rcases hlast with hfull | rfl
    · rw [hfull]
      exact ih hrest _
    · rw [expandSlots, expandSlotsFrom]
      exact decodeFrom_nil fill _ _

end Sys2Proof.Machine
end

section
/-! PROOFS. LOOKUP as a function of the input and the position (spec 40_dictionary.md R95 to R103), where the dictionary holds
the input before `pos`. -/

namespace Sys2Proof.Machine

theorem swapHash_injective (p : Hash × Hash) : Function.Injective fun h => swapHash h p := fun g h hgh => by
  rw [← swapHash_swapHash g p, ← swapHash_swapHash h p]
  exact congrArg (fun x => swapHash x p) hgh

theorem foldl_swapHash_injective (swaps : List (Hash × Hash)) : Function.Injective fun h => swaps.foldl swapHash h := by
  induction swaps with
  | nil => exact fun g h hgh => hgh
  | cons p swaps ih => exact ih.comp (swapHash_injective p)

/-- HASH is injective under every parameter (R95). -/
theorem hash_eq_iff {c : Config} {b0 b1 c0 c1 : Byte} : c.hash b0 b1 = c.hash c0 c1 ↔ b0 = c0 ∧ b1 = c1 :=
  ⟨fun h => packPrefix_injective (foldl_swapHash_injective c.hashSwaps h), fun ⟨h0, h1⟩ => by rw [h0, h1]⟩

theorem newest_map {α β : Type} (g : α → β) (n : Nat) (l : List α) : newest n (l.map g) = (newest n l).map g := by
  rw [newest, newest, List.length_map, List.map_drop]

theorem newest_newest {α : Type} {m n : Nat} (h : m ≤ n) (l : List α) : newest m (newest n l) = newest m l := by
  rw [newest, newest, newest, List.drop_drop, List.length_drop]
  congr 1
  omega

/-- The candidate of a position (R25). -/
def candidateAt (a : Nat) : Candidate := { widx := BitVec.ofNat 13 a, abs := a }

/-- The bucket of the two bytes at `pos` lists the newest positions where both occurred before (R94, R103). -/
theorem bucket_of_next_pair {s : State} (h : s.DictionaryHolds) :
    bucket s (s.cfg.hash (inByte s s.pos) (inByte s (s.pos + 1))) =
      newest Config.bucketCap ((refPositions (inByte s) s.pos).map candidateAt) := by
  rw [h.buckets, refBucket, refCandidates, refPositions]
  refine congrArg (fun l : List Nat => newest Config.bucketCap (l.map candidateAt)) (List.filter_congr fun a _ => ?_)
  rw [Bool.eq_iff_iff, beq_iff_eq, hash_eq_iff, Bool.and_eq_true, beq_iff_eq, beq_iff_eq]

/-- The candidates a lookup scans (R97). -/
theorem scanned_candidates {s : State} (h : s.DictionaryHolds) :
    newest Config.scanDepth (bucket s (s.cfg.hash (inByte s s.pos) (inByte s (s.pos + 1)))) =
      (newest Config.scanDepth (refPositions (inByte s) s.pos)).map candidateAt := by
  rw [bucket_of_next_pair h, newest_newest (by decide), newest_map]

/-- What a live candidate offers is the input from its position on, past the cursor too (R99). -/
theorem cmpByte_of_position {s : State} (h : s.DictionaryHolds) {a : Nat} (hlt : a < s.pos)
    (hlive : s.pos - a ≤ Config.windowSize) (k : Nat) :
    cmpByte s (BitVec.ofNat 13 a) (s.pos - a) k = inByte s (a + k) := by
  rw [cmpByte]
  split
  · rw [← BitVec.ofNat_add]
    exact h.window (a + k) (by omega) (by omega)
  · congr 1
    omega

/-- How many bytes from extension index `l` on agree, of at most `fuel`. -/
def agreeing (f : Nat → Byte) (a pos l fuel : Nat) : Nat :=
  ((List.range' l fuel).takeWhile fun k => f (a + k) == f (pos + k)).length

theorem agreeing_succ (f : Nat → Byte) (a pos l fuel : Nat) :
    agreeing f a pos l (fuel + 1) = if f (a + l) = f (pos + l) then agreeing f a pos (l + 1) fuel + 1 else 0 := by
  rw [agreeing, List.range'_succ, List.takeWhile_cons]
  by_cases h : f (a + l) = f (pos + l) <;> simp [h, agreeing]

theorem agreeing_le (f : Nat → Byte) (a pos l fuel : Nat) : agreeing f a pos l fuel ≤ fuel := by
  simpa [agreeing] using (List.takeWhile_sublist (l := List.range' l fuel) _).length_le

/-- An extension of `m` bytes is cut at the distance `d` under `stop` (R99). -/
def cutLength (policy : CmpPolicy) (d m : Nat) : Nat :=
  match policy with
  | .overlap => m
  | .stop => min m d

theorem cutLength_le (policy : CmpPolicy) (d m : Nat) : cutLength policy d m ≤ m := by
  cases policy with
  | overlap => exact le_rfl
  | stop => exact Nat.min_le_left m d

theorem cutLength_of_le {policy : CmpPolicy} {d m : Nat} (h : policy = .stop → m ≤ d) : cutLength policy d m = m := by
  cases policy with
  | overlap => rfl
  | stop => exact Nat.min_eq_left (h rfl)

theorem refLen_eq (policy : CmpPolicy) (f : Nat → Byte) (n pos a : Nat) :
    refLen policy f n pos a = cutLength policy (pos - a) (agreeing f a pos 0 (refMax n pos)) := by
  rw [agreeing, ← List.range_eq_range']
  cases policy with
  | overlap => rfl
  | stop => rfl

theorem refLen_le (policy : CmpPolicy) (f : Nat → Byte) (n pos a : Nat) :
    refLen policy f n pos a ≤ refMax n pos := by
  rw [refLen_eq]
  exact (cutLength_le _ _ _).trans (agreeing_le _ _ _ _ _)

/-- An extension is a run of agreeing bytes, cut at the distance under `stop` (R99). -/
theorem extend_eq {s : State} {p : WinIx} {d a : Nat} (hcmp : ∀ k, cmpByte s p d k = inByte s (a + k)) (fuel l : Nat)
    (hl : s.cfg.cmpPolicy = .stop → l ≤ d) :
    extend s p d fuel l = cutLength s.cfg.cmpPolicy d (l + agreeing (inByte s) a s.pos l fuel) := by
  induction fuel generalizing l with
  | zero => exact (cutLength_of_le hl).symm
  | succ fuel ih =>
    rw [extend, hcmp, agreeing_succ]
    split_ifs with hstop hagree
    · obtain ⟨hpolicy, rfl⟩ := hstop
      rw [hpolicy]
      exact (Nat.min_eq_right (Nat.le_add_right l _)).symm
    · obtain ⟨hpolicy, rfl⟩ := hstop
      rw [hpolicy]
      exact (Nat.min_eq_right (Nat.le_add_right l _)).symm
    · have hnext : s.cfg.cmpPolicy = .stop → l + 1 ≤ d := fun hp =>
        lt_of_le_of_ne (hl hp) fun hd => hstop ⟨hp, hd⟩
      rw [ih (l + 1) hnext, Nat.add_assoc, Nat.add_comm 1]
    · exact (cutLength_of_le hl).symm

/-- R103's `L(a)` is the extension of the candidate at `a`, where it is live. -/
theorem extend_of_position {s : State} (h : s.DictionaryHolds) {a : Nat} (hlt : a < s.pos)
    (hlive : s.pos - a ≤ Config.windowSize) :
    extend s (BitVec.ofNat 13 a) (s.pos - a) (lookupMax s) 0 =
      refLen s.cfg.cmpPolicy (inByte s) s.inLen s.pos a := by
  rw [extend_eq (cmpByte_of_position h hlt hlive) _ _ fun _ => Nat.zero_le _, Nat.zero_add, refLen_eq]
  rfl

/-- R103's choice so far, after one more position. -/
def longer (policy : CmpPolicy) (f : Nat → Byte) (n pos : Nat) (best : Nat × Nat) (a : Nat) : Nat × Nat :=
  if best.1 < refLen policy f n pos a then (refLen policy f n pos a, a) else best

theorem foldl_longer_of_max {policy : CmpPolicy} {f : Nat → Byte} {n pos : Nat} {best : Nat × Nat}
    (h : best.1 = refMax n pos) (l : List Nat) : l.foldl (longer policy f n pos) best = best := by
  induction l with
  | nil => rfl
  | cons a l ih =>
    have hnot : ¬ best.1 < refLen policy f n pos a := by
      rw [h]
      exact Nat.not_lt_of_le (refLen_le policy f n pos a)
    rw [List.foldl_cons, longer, if_neg hnot, ih]

theorem scan_of_stale {s : State} {c : Candidate} (h : Config.windowSize < s.cnt - c.abs) (maxlen : Nat)
    (rest : List Candidate) (best : Nat × WinIx) : scan s maxlen (c :: rest) best = scan s maxlen rest best := by
  rw [scan]
  exact if_pos h

/-- The best extension after one of length `l` at window index `p`: only a longer one replaces it (R100). -/
def keepLonger (best : Nat × WinIx) (l : Nat) (p : WinIx) : Nat × WinIx := if best.1 < l then (l, p) else best

theorem scan_of_live {s : State} {c : Candidate} (h : s.cnt - c.abs ≤ Config.windowSize) {maxlen l : Nat}
    (hl : extend s c.widx (s.cnt - c.abs) maxlen 0 = l) (rest : List Candidate) (best : Nat × WinIx) :
    scan s maxlen (c :: rest) best =
      if (keepLonger best l c.widx).1 = maxlen then keepLonger best l c.widx
      else scan s maxlen rest (keepLonger best l c.widx) := by
  rw [scan, ← hl]
  exact if_neg (Nat.not_lt_of_le h)

/-- The best extension so far, as a scan keeps it: with the window index of its position. -/
def scanned (best : Nat × Nat) : Nat × WinIx := (best.1, BitVec.ofNat 13 best.2)

theorem keepLonger_scanned (policy : CmpPolicy) (f : Nat → Byte) (n pos : Nat) (best : Nat × Nat) (a : Nat) :
    keepLonger (scanned best) (refLen policy f n pos a) (candidateAt a).widx = scanned (longer policy f n pos best a) := by
  rw [longer, apply_ite scanned]
  rfl

/-- A scan of candidates makes R103's choice among the usable positions (R98, R100, R103). -/
theorem scan_eq {s : State} (h : s.DictionaryHolds) {l : List Nat} (hl : ∀ a ∈ l, a < s.pos) (best : Nat × Nat) :
    scan s (lookupMax s) (l.map candidateAt) (scanned best) =
      scanned ((l.filter fun a => decide (s.pos - a ≤ Config.windowSize)).foldl
        (longer s.cfg.cmpPolicy (inByte s) s.inLen s.pos) best) := by
  induction l generalizing best with
  | nil => rfl
  | cons a l ih =>
    obtain ⟨ha, hl⟩ := List.forall_mem_cons.mp hl
    have hdist : s.cnt - (candidateAt a).abs = s.pos - a := by rw [h.posCnt]; rfl
    rw [List.map_cons]
    by_cases hlive : s.pos - a ≤ Config.windowSize
    · have hextend : extend s (candidateAt a).widx (s.cnt - (candidateAt a).abs) (lookupMax s) 0 =
          refLen s.cfg.cmpPolicy (inByte s) s.inLen s.pos a := by
        rw [hdist]
        exact extend_of_position h ha hlive
      rw [scan_of_live (hdist ▸ hlive) hextend, keepLonger_scanned, List.filter_cons_of_pos (by simpa using hlive),
        List.foldl_cons]
      split_ifs with hmax
      · rw [foldl_longer_of_max hmax]
      · exact ih hl _
    · rw [scan_of_stale (hdist ▸ Nat.lt_of_not_le hlive), ih hl, List.filter_cons_of_neg (by simpa using hlive)]

/-- LOOKUP is an early exit, or the scan's best if that is long enough (R96, R101). -/
theorem lookup_of_scan {s : State} {best : Nat × WinIx}
    (h : scan s (lookupMax s) (newest Config.scanDepth
      (bucket s (s.cfg.hash (inByte s s.pos) (inByte s (s.pos + 1))))) (0, 0) = best) :
    lookup s =
      if 2 ≤ s.cnt ∧ 2 ≤ s.inLen - s.pos ∧ Config.minLen ≤ best.1 then some best else none := by
  rw [lookup]
  dsimp only
  rw [h]
  by_cases hearly : s.cnt < 2 ∨ s.inLen - s.pos < 2
  · rw [if_pos hearly, if_neg (by omega)]
  · rw [if_neg hearly]
    exact if_congr (by omega) rfl rfl

/-- R103: where the dictionary holds the input before `pos`, LOOKUP is R103's function of the input and the position. -/
theorem lookup_eq_refLookup {s : State} (h : s.DictionaryHolds) :
    lookup s = refLookup s.cfg.cmpPolicy (inByte s) s.inLen s.pos := by
  have hpositions : ∀ a ∈ newest Config.scanDepth (refPositions (inByte s) s.pos), a < s.pos := fun a ha => by
    have hmem := List.mem_range.mp (List.mem_of_mem_filter (mem_of_mem_newest ha))
    omega
  have hscan := scan_eq h hpositions (0, 0)
  rw [← scanned_candidates h] at hscan
  rw [lookup_of_scan hscan, ← h.posCnt]
  rfl

end Sys2Proof.Machine
end

section
/-! PROOFS. ENCODE is the greedy parse of its input (spec 40_dictionary.md R103, 41_encoder.md R110 to R118): what was
emitted, the open block and the parse of the remaining input make the whole stream at every step. -/

namespace Sys2Proof.Machine

theorem blockFlag_concat (els : List Instr) (e : Instr) (i : Nat) :
    blockFlag (els ++ [e]) i =
      blockFlag els i ||| (if e.context = .literal then 1#8 <<< (i + els.length) else 0) := by
  induction els generalizing i with
  | nil => simp [blockFlag]
  | cons x els ih =>
    rw [List.cons_append, blockFlag, ih, blockFlag, BitVec.or_assoc, List.length_cons, Nat.add_assoc i 1,
      Nat.add_comm 1]

/-- The open block of ENCODE holds the elements `block` so far (R29 to R31, R115, R116). -/
structure State.BlockHolds (s : State) (block : List Instr) : Prop where
  slot_eq : s.slot = block.length
  length_le : block.length ≤ Config.slots
  flag_eq : s.flagAcc = blockFlag block 0
  staged_eq : staged s = block.flatMap encode
  stage_le : s.stageLen ≤ 2 * block.length

/-- A block opens with no element (R113). -/
theorem openBlock_blockHolds (s : State) : (openBlock s).BlockHolds [] :=
  ⟨rfl, Nat.zero_le _, rfl, List.take_zero, le_rfl⟩

theorem staged_encLit {s : State} (h : s.stageLen < 16) : staged (encLit s) = staged s ++ [inByte s s.pos] :=
  staged_stageByte h _

/-- A literal joins the block (R116). -/
theorem encLit_blockHolds {s : State} {block : List Instr} (h : s.BlockHolds block) (hslot : s.slot < Config.slots) :
    (nextSlot (encLit s)).BlockHolds (block ++ [.lit (inByte s s.pos)]) := by
  obtain ⟨hslotEq, -, hflag, hstaged, hstage⟩ := h
  have hroom : s.slot < 8 := hslot
  constructor
  case slot_eq =>
    rw [List.length_append, ← hslotEq]
    rfl
  case length_le =>
    rw [List.length_append, ← hslotEq]
    exact hslot
  case flag_eq =>
    rw [blockFlag_concat, ← hflag, Nat.zero_add, ← hslotEq]
    rfl
  case staged_eq =>
    rw [List.flatMap_append, ← hstaged]
    exact staged_encLit (by omega)
  case stage_le =>
    rw [List.length_append, List.length_singleton]
    change s.stageLen + 1 ≤ _
    omega

/-- A match joins the block (R115). -/
theorem encMatch_blockHolds {s : State} {block : List Instr} (h : s.BlockHolds block) (hslot : s.slot < Config.slots)
    (len : Nat) (off : WinIx) : (nextSlot (encMatch len off s)).BlockHolds (block ++ [.matchTok len off]) := by
  obtain ⟨hslotEq, -, hflag, hstaged, hstage⟩ := h
  have hroom : s.slot < 8 := hslot
  have hstagedMatch := staged_encMatch (s := s) (by omega) len off
  constructor
  case slot_eq =>
    rw [encMatch_frame, List.length_append, ← hslotEq]
    rfl
  case length_le =>
    rw [List.length_append, ← hslotEq]
    exact hslot
  case flag_eq =>
    rw [encMatch_frame, blockFlag_concat, ← hflag]
    exact (BitVec.or_zero).symm
  case staged_eq =>
    rw [List.flatMap_append, ← hstaged]
    exact hstagedMatch.trans (by rw [List.flatMap_singleton])
  case stage_le =>
    rw [encMatch_frame, List.length_append, List.length_singleton]
    change s.stageLen + 2 ≤ _
    omega

/-- The greedy parse of the input that remains in `s` (R103, R114). -/
def remainingParse (s : State) (fuel : Nat) : List Instr :=
  refParse s.cfg.cmpPolicy (inByte s) s.inLen fuel s.pos

/-- ENCODE runs, and what it has emitted, its open block and the parse of the remaining input make `bytes`. -/
structure State.Emits (s : State) (bytes : List Byte) (block : List Instr) (fuel : Nat) : Prop where
  running : s.Running .encode
  dictionary : s.DictionaryHolds
  blockHolds : s.BlockHolds block
  fuel_le : s.inLen ≤ s.pos + fuel
  some_left : block = [] → s.pos < s.inLen
  bytes_eq : s.out ++ listingBytes (expandSlots (block ++ remainingParse s fuel)) = bytes

theorem State.Emits.hostIn_eq {s : State} {bytes : List Byte} {block : List Instr} {fuel : Nat}
    (h : s.Emits bytes block fuel) : s.hostIn = [] := by
  obtain ⟨-, -, hin⟩ := h.running
  exact hin

theorem remainingParse_of_end {s : State} (h : s.inLen ≤ s.pos) (fuel : Nat) : remainingParse s fuel = [] := by
  cases fuel with
  | zero => rfl
  | succ fuel => exact if_pos h

theorem remainingParse_of_none {s : State} (hd : s.DictionaryHolds) (hpos : s.pos < s.inLen) (hl : lookup s = none)
    (fuel : Nat) :
    remainingParse s (fuel + 1) = .lit (inByte s s.pos) :: remainingParse (nextSlot (encLit s)) fuel := by
  rw [remainingParse, refParse, if_neg (Nat.not_le_of_lt hpos), ← lookup_eq_refLookup hd, hl]
  rfl

theorem remainingParse_of_match {s : State} (hd : s.DictionaryHolds) (hpos : s.pos < s.inLen) {len : Nat} {off : WinIx}
    (hl : lookup s = some (len, off)) (fuel : Nat) :
    remainingParse s (fuel + 1) = .matchTok len off :: remainingParse (nextSlot (encMatch len off s)) fuel := by
  rw [remainingParse, refParse, if_neg (Nat.not_le_of_lt hpos), ← lookup_eq_refLookup hd, hl, encMatch_frame]
  rfl

/-- A slot moves the first element of the remaining parse into the open block (R114). -/
theorem encSlot_emits {s : State} {bytes : List Byte} {block : List Instr} {fuel : Nat} (h : s.Emits bytes block fuel)
    (hslot : s.slot < Config.slots) (hpos : s.pos < s.inLen) : ∃ e k, (encSlot s).Emits bytes (block ++ [e]) k := by
  obtain ⟨hrunning, hdict, hblock, hfuel, -, hbytes⟩ := h
  obtain ⟨k, rfl⟩ : ∃ k, fuel = k + 1 := Nat.exists_eq_succ_of_ne_zero (by omega)
  have nonempty {e : Instr} {p : Prop} : block ++ [e] = [] → p := fun h => by simp at h
  rcases encSlot_cases s with ⟨len, off, hl, he⟩ | ⟨hl, he⟩ <;> rw [he]
  · have hmin : 3 ≤ len := (lookup_length hl).1
    refine ⟨.matchTok len off, k, ?_, { encMatch_dictionaryHolds hdict len off with },
      encMatch_blockHolds hblock hslot len off, ?_, nonempty, ?_⟩
    · rw [encMatch_frame]
      exact hrunning
    · rw [encMatch_frame]
      change s.inLen ≤ s.pos + len + k
      omega
    · rw [← hbytes, remainingParse_of_match hdict hpos hl, List.append_assoc, encMatch_frame]
      rfl
  · refine ⟨.lit (inByte s s.pos), k, hrunning, { encLit_dictionaryHolds hdict with },
      encLit_blockHolds hblock hslot, ?_, nonempty, ?_⟩
    · change s.inLen ≤ s.pos + 1 + k
      omega
    · rw [← hbytes, remainingParse_of_none hdict hpos hl, List.append_assoc]
      rfl

/-- Closing the open block emits its flag byte and its payloads (R117). -/
theorem encClose_out_eq {s : State} {bytes : List Byte} {block : List Instr} {fuel : Nat} (h : s.Emits bytes block fuel)
    (hne : block ≠ []) (hlast : block.length = Config.slots ∨ remainingParse s fuel = []) :
    (encClose s).out ++ listingBytes (expandSlots (remainingParse s fuel)) = bytes := by
  rw [← h.bytes_eq, expandSlots_append hne h.blockHolds.length_le hlast, listingBytes_append, listingBytes_expandBlock,
    encClose_out, h.blockHolds.flag_eq, h.blockHolds.staged_eq, List.append_assoc]

/-- ENCODE has emitted `bytes` and waits, or is on the way. -/
def State.EmitsOrEmitted (bytes : List Byte) (s : State) : Prop :=
  s.hostIn = [] ∧ ((∃ block fuel, s.Emits bytes block fuel) ∨ (s.run ≠ .busy ∧ s.out = bytes))

theorem encStep_emits {s : State} {bytes : List Byte} {block : List Instr} {fuel : Nat} (h : s.Emits bytes block fuel) :
    (encStep s).EmitsOrEmitted bytes := by
  rcases encStep_cases s with ⟨hslot, hpos, he⟩ | ⟨hslot, hpos, he⟩ | ⟨hpos, he⟩ <;> rw [he]
  · obtain ⟨e, k, hk⟩ := encSlot_emits h hslot hpos
    exact ⟨hk.hostIn_eq, .inl ⟨_, k, hk⟩⟩
  · have hfull : block.length = Config.slots :=
      Nat.le_antisymm h.blockHolds.length_le (h.blockHolds.slot_eq ▸ Nat.le_of_not_lt hslot)
    have hne : block ≠ [] := fun hnil => by simp [hnil] at hfull
    exact ⟨h.hostIn_eq, .inl ⟨[], fuel,
      { running := h.running
        dictionary := { h.dictionary with }
        blockHolds := openBlock_blockHolds _
        fuel_le := h.fuel_le
        some_left := fun _ => hpos
        bytes_eq := encClose_out_eq h hne (.inl hfull) }⟩⟩
  · have hend : remainingParse s fuel = [] := remainingParse_of_end (Nat.le_of_not_lt hpos) fuel
    have hout := encClose_out_eq h (fun hnil => hpos (h.some_left hnil)) (.inr hend)
    rw [hend] at hout
    exact ⟨h.hostIn_eq, .inr ⟨nofun, (List.append_nil _).symm.trans hout⟩⟩

/-- Elements are executed while BUSY only. -/
theorem Selects.run_eq {s : State} {c : Context} (h : Selects s c) : s.run = .busy := by
  obtain ⟨hrun, -, -, -⟩ := h
  exact hrun

/-- Every step of a run of ENCODE keeps what it emits in the end. -/
theorem step_emits {s t : State} {bytes : List Byte} (hs : s.EmitsOrEmitted bytes) (h : step s = .next t) :
    t.EmitsOrEmitted bytes := by
  obtain ⟨hin, ⟨block, fuel, hemits⟩ | ⟨hrun, hout⟩⟩ := id hs
  · cases (step_of_running_encode hemits.running).symm.trans h
    exact encStep_emits hemits
  · cases codecStep_of_step hin h with
    | wait => exact hs
    | encode hbusy => exact absurd hbusy hrun
    | decodeEnd hbusy => exact absurd hbusy hrun
    | flag hsel => exact absurd hsel.run_eq hrun
    | lit hsel => exact absurd hsel.run_eq hrun
    | matchTok _ hsel => exact absurd hsel.run_eq hrun
    | cutToken hsel => exact absurd hsel.run_eq hrun

/-- The accepted CMD.ENCODE starts the stream of the whole input, which is empty where the input is (R111 to R113). -/
theorem beginEncode_emits {s : State} (hin : s.hostIn = []) :
    (beginEncode (accept .encode s)).EmitsOrEmitted (encodeInput s.cfg.cmpPolicy (inByte s) s.inLen) := by
  rcases beginEncode_cases (accept .encode s) with ⟨hlen, hb⟩ | ⟨hlen, hb⟩
  · have hlen : s.inLen = 0 := hlen
    rw [hb, hlen]
    exact ⟨hin, .inr ⟨nofun, rfl⟩⟩
  · have hdict := beginEncode_dictionaryHolds (s := accept .encode s) (by rw [hb]; rfl)
    rw [hb] at hdict ⊢
    exact ⟨hin, .inl ⟨[], s.inLen,
      { running := ⟨rfl, rfl, hin⟩
        dictionary := hdict
        blockHolds := openBlock_blockHolds _
        fuel_le := Nat.le_add_left _ _
        some_left := fun _ => hlen
        bytes_eq := rfl }⟩⟩

/-- Settles O56: a run keeps what it emits in the end, and a finished one has emitted it. -/
theorem encodeIsItsGreedyParse : Obligations.EncodeIsItsGreedyParse := by
  intro s t hcmd hend
  have hstart := beginEncode_emits (s := { s with hostIn := [] }) rfl
  obtain ⟨-, ⟨block, fuel, hemits⟩ | ⟨-, hout⟩⟩ :=
    endsAt_keeps (fun u v hu huv => step_emits hu huv) (step_of_commanded_encode hcmd) hstart hend
  · obtain ⟨_, _, -, -, hfinished⟩ := hend
    obtain ⟨hbusy, -, -⟩ := hemits.running
    simp [State.Finished, hbusy] at hfinished
  · exact hout

/-- Before position 2 the parse is a literal (R83(a), R96). -/
theorem refParse_of_early {policy : CmpPolicy} {f : Nat → Byte} {n pos : Nat} (hearly : pos < 2) (hpos : pos < n)
    (fuel : Nat) : refParse policy f n (fuel + 1) pos = .lit (f pos) :: refParse policy f n fuel (pos + 1) := by
  have hnone : refLookup policy f n pos = none := if_neg fun h => absurd h.1 (Nat.not_le_of_lt hearly)
  rw [refParse, if_neg (Nat.not_le_of_lt hpos), hnone]

/-- The stream of SLOTS begins with the flag byte of its first block and the words of its first element. -/
theorem listingBytes_expandSlots_cons (e : Instr) (els : List Instr) :
    ∃ rest, listingBytes (expandSlots (e :: els)) =
      blockFlag (e :: els.take 7) 0 :: (encode e ++ ((els.take 7).flatMap encode ++ rest)) := by
  refine ⟨listingBytes (expandSlots (els.drop 7)), ?_⟩
  rw [expandSlots_first (List.cons_ne_nil e els), listingBytes_append, listingBytes_expandBlock, List.take_succ_cons,
    List.drop_succ_cons, List.flatMap_cons, List.cons_append, List.append_assoc]

/-- Settles O55: the greedy parse begins with a literal for each of the first two positions. -/
theorem encodeBeginsWithLiterals : Obligations.EncodeBeginsWithLiterals := by
  intro s t hcmd hlen hend
  obtain ⟨k, hk⟩ : ∃ k, s.inLen = k + 1 := Nat.exists_eq_succ_of_ne_zero (by omega)
  obtain ⟨rest, hbytes⟩ := listingBytes_expandSlots_cons (.lit (inByte s 0))
    (refParse s.cfg.cmpPolicy (inByte s) s.inLen k 1)
  have hparse : refParse s.cfg.cmpPolicy (inByte s) s.inLen s.inLen 0 =
      .lit (inByte s 0) :: refParse s.cfg.cmpPolicy (inByte s) s.inLen k 1 := by
    nth_rw 2 [hk]
    exact refParse_of_early (by decide) hlen k
  rw [← hparse] at hbytes
  refine ⟨_, _, (encodeIsItsGreedyParse s t hcmd hend).trans hbytes, ?_, fun htwo => ?_⟩
  · exact blockFlag_getLsbD_self (.lit (inByte s 0)) _ (by decide)
  · obtain ⟨m, rfl⟩ : ∃ m, k = m + 1 := Nat.exists_eq_succ_of_ne_zero (by omega)
    rw [refParse_of_early (by decide) htwo, List.take_succ_cons]
    have hflag := flagAgrees_blockFlag (i := 0)
      (els := .lit (inByte s 0) :: .lit (inByte s 1) :: (refParse s.cfg.cmpPolicy (inByte s) s.inLen m 2).take 6)
      (by simp; omega)
    obtain ⟨-, hsecond, -⟩ := hflag
    exact ⟨hsecond, rfl⟩

end Sys2Proof.Machine
end

section
/-! PROOFS. What a lookup answers (spec 40_dictionary.md R95 to R107): its bounds and its candidate in any state, and, where
the dictionary holds the input before `pos`, R103's choice, which no HASH changes and which the decoder's copy expands. -/

namespace Sys2Proof.Machine

/-- Settles O7: exchanges of hash values after the injective default. -/
theorem hashIsInjective : Obligations.HashIsInjective := fun _ _ _ _ _ h => hash_eq_iff.mp h

/-- Settles O40: each exit fails one of the conditions of an answer. -/
theorem lookupEarlyExits : Obligations.LookupEarlyExits := by
  intro s hexit
  rw [lookup_of_scan rfl]
  refine if_neg fun ⟨hcnt, hleft, hmin⟩ => ?_
  rcases hexit with hcnt' | hleft' | hempty
  · omega
  · omega
  · have hmin : Config.minLen ≤ 0 := by rwa [hempty] at hmin
    exact absurd hmin (by decide)

/-- Settles O41: the longest length is at most 10 and at most what remains. -/
theorem lookupLengthBounds : Obligations.LookupLengthBounds := by
  intro s len off h
  obtain ⟨hmin, hmax⟩ := lookup_length h
  have hcap : len ≤ 10 := hmax.trans (Nat.min_le_left _ _)
  have hleft : len ≤ s.inLen - s.pos := hmax.trans (Nat.min_le_right _ _)
  have hmin : 3 ≤ len := hmin
  omega

/-- Settles O42: an answer is long enough, so it is not the scan's start but one of its live candidates. -/
theorem lookupUsesOneOfTheNewestLive : Obligations.LookupUsesOneOfTheNewestLive := by
  intro s len off h
  rw [lookup_of_scan rfl] at h
  obtain ⟨⟨-, -, hmin⟩, hbest⟩ := Option.ite_none_right_eq_some.mp h
  rcases scan_cases s (lookupMax s) _ (0, 0) with hs | ⟨c, hc, hlive, hs⟩
  · rw [hs] at hmin
    exact absurd hmin (by decide)
  · rw [hs] at hbest
    cases hbest
    exact ⟨c, hc, rfl, hlive⟩

/-- `best` is R103's choice among the positions `l`: none of them extends farther, and unless it is the empty choice it
is the first of them that extends as far. -/
structure IsFirstLongest (policy : CmpPolicy) (f : Nat → Byte) (n pos : Nat) (l : List Nat) (best : Nat × Nat) : Prop where
  longest : ∀ a ∈ l, refLen policy f n pos a ≤ best.1
  first : 0 < best.1 →
    best.2 ∈ l ∧ refLen policy f n pos best.2 = best.1 ∧ ∀ a ∈ l, refLen policy f n pos a = best.1 → best.2 ≤ a

/-- Replacing the choice by a longer one only keeps the first of the longest, where the positions rise (R100, R103). -/
theorem foldl_longer_isFirstLongest (policy : CmpPolicy) (f : Nat → Byte) (n pos : Nat) {l : List Nat}
    (hl : l.Pairwise (· < ·)) : IsFirstLongest policy f n pos l (l.foldl (longer policy f n pos) (0, 0)) := by
  induction l using List.reverseRecOn with
  | nil => exact ⟨by simp, fun h => absurd h (Nat.lt_irrefl 0)⟩
  | append_singleton l a ih =>
    obtain ⟨hl, -, hlast⟩ := List.pairwise_append.mp hl
    obtain ⟨hlongest, hfirst⟩ := ih hl
    rw [List.foldl_concat, longer]
    split_ifs with hlt
    · constructor
      case longest =>
        rw [List.forall_mem_append]
        exact ⟨fun b hb => (hlongest b hb).trans hlt.le, by simp⟩
      case first =>
        refine fun _ => ⟨by simp, rfl, List.forall_mem_append.mpr ⟨fun b hb heq => ?_, by simp⟩⟩
        exact absurd (hlongest b hb) (Nat.not_le_of_lt (heq ▸ hlt))
    · constructor
      case longest =>
        rw [List.forall_mem_append]
        exact ⟨hlongest, by simpa using hlt⟩
      case first =>
        intro hpos
        obtain ⟨hmem, hlen, hle⟩ := hfirst hpos
        exact ⟨List.mem_append_left _ hmem, hlen, List.forall_mem_append.mpr
          ⟨hle, fun b hb _ => (hlast _ hmem b hb).le⟩⟩

theorem refUsable_pairwise (f : Nat → Byte) (pos : Nat) : (refUsable f pos).Pairwise (· < ·) :=
  ((List.pairwise_lt_range.filter _).drop).filter _

/-- A usable position lies before `pos`, not farther back than `W` (R98, R103). -/
theorem mem_refUsable {f : Nat → Byte} {pos a : Nat} (h : a ∈ refUsable f pos) :
    a < pos ∧ pos - a ≤ Config.windowSize := by
  obtain ⟨hmem, hlive⟩ := List.mem_filter.mp h
  have hlt := List.mem_range.mp (List.mem_of_mem_filter (mem_of_mem_newest hmem))
  exact ⟨by omega, of_decide_eq_true hlive⟩

/-- The closed form of LOOKUP through the choice it makes (R103). -/
theorem refLookup_eq (policy : CmpPolicy) (f : Nat → Byte) (n pos : Nat) :
    refLookup policy f n pos =
      if 2 ≤ pos ∧ 2 ≤ n - pos ∧ Config.minLen ≤ ((refUsable f pos).foldl (longer policy f n pos) (0, 0)).1 then
        some (scanned ((refUsable f pos).foldl (longer policy f n pos) (0, 0)))
      else none := rfl

/-- The closed form of LOOKUP is R103's choice. -/
theorem refLookup_isLookupResult (policy : CmpPolicy) (f : Nat → Byte) (n pos : Nat) :
    IsLookupResult policy f n pos (refLookup policy f n pos) := by
  obtain ⟨hlongest, hfirst⟩ := foldl_longer_isFirstLongest policy f n pos (refUsable_pairwise f pos)
  rw [refLookup_eq]
  split_ifs with h
  · obtain ⟨htwo, hleft, hmin⟩ := h
    obtain ⟨hmem, hlen, hle⟩ := hfirst (lt_of_lt_of_le (by decide) hmin)
    exact ⟨htwo, hleft, hmin, _, hmem, hlen, rfl, fun a ha => ⟨hlongest a ha, hle a ha⟩⟩
  · by_cases hearly : pos < 2 ∨ n - pos < 2
    · exact hearly.imp id .inl
    · refine .inr (.inr fun a ha => (hlongest a ha).trans_lt ?_)
      omega

/-- Settles O43: LOOKUP is its closed form, which is R103's choice. -/
theorem lookupIsItsAbstractForm : Obligations.LookupIsItsAbstractForm := by
  intro s h _
  rw [lookup_eq_refLookup h]
  exact refLookup_isLookupResult s.cfg.cmpPolicy (inByte s) s.inLen s.pos

/-- Since HASH is injective, a bucket lists the candidates of one pair of bytes (R95, R105). -/
theorem bucket_of_pair {s : State} (h : s.DictionaryHolds) (b0 b1 : Byte) :
    bucket s (s.cfg.hash b0 b1) = prefixBucket (inByte s) s.pos b0 b1 := by
  have hkeep : (fun c0 c1 => s.cfg.hash c0 c1 == s.cfg.hash b0 b1) = fun c0 c1 => c0 == b0 && c1 == b1 := by
    funext c0 c1
    rw [Bool.eq_iff_iff, beq_iff_eq, hash_eq_iff, Bool.and_eq_true, beq_iff_eq, beq_iff_eq]
  rw [h.buckets, refBucket, hkeep, prefixBucket]

/-- Whether bytes agree is asked of the covered ones only. -/
theorem agreeing_congr {f g : Nat → Byte} {a pos l fuel : Nat}
    (hfg : ∀ k, k < l + fuel → f (a + k) = g (a + k) ∧ f (pos + k) = g (pos + k)) :
    agreeing f a pos l fuel = agreeing g a pos l fuel := by
  induction fuel generalizing l with
  | zero => rfl
  | succ fuel ih =>
    obtain ⟨ha, hpos⟩ := hfg l (by omega)
    rw [agreeing_succ, agreeing_succ, ha, hpos, ih fun k hk => hfg k (by omega)]

section
variable {f g : Nat → Byte} {n pos : Nat} (hfg : ∀ a, a < n → f a = g a)
include hfg

/-- An extension reads the input only (R96, R99). -/
theorem refLen_congr (policy : CmpPolicy) {a : Nat} (ha : a < pos) :
    refLen policy f n pos a = refLen policy g n pos a := by
  have hleft : refMax n pos ≤ n - pos := Nat.min_le_right _ _
  rw [refLen_eq, refLen_eq, agreeing_congr fun k hk => ⟨hfg (a + k) (by omega), hfg (pos + k) (by omega)⟩]

/-- Where a pair of bytes is left at `pos`, its earlier positions are those of the input (R103). -/
theorem refUsable_congr (htwo : 2 ≤ n - pos) : refUsable f pos = refUsable g pos := by
  have hpositions : refPositions f pos = refPositions g pos := List.filter_congr fun a ha => by
    have hlt := List.mem_range.mp ha
    rw [hfg a (by omega), hfg (a + 1) (by omega), hfg pos (by omega), hfg (pos + 1) (by omega)]
  rw [refUsable, hpositions, refUsable]

/-- The closed form of LOOKUP is a function of the input's bytes (R103). -/
theorem refLookup_congr (policy : CmpPolicy) : refLookup policy f n pos = refLookup policy g n pos := by
  by_cases htwo : 2 ≤ n - pos
  · have hbest : (refUsable g pos).foldl (longer policy f n pos) (0, 0) =
        (refUsable g pos).foldl (longer policy g n pos) (0, 0) :=
      List.foldl_ext _ _ _ fun best a ha => by
        obtain ⟨hlt, -⟩ := mem_refUsable ha
        rw [longer, longer, refLen_congr hfg policy hlt]
    rw [refLookup_eq, refLookup_eq, refUsable_congr hfg htwo, hbest]
  · rw [refLookup_eq, refLookup_eq, if_neg fun ⟨_, hleft, _⟩ => htwo hleft, if_neg fun ⟨_, hleft, _⟩ => htwo hleft]

end

/-- Settles O44: neither the candidates of a pair nor the closed form of LOOKUP mentions HASH. -/
theorem hashChoiceIsNotObservable : Obligations.HashChoiceIsNotObservable := by
  refine ⟨fun s b0 b1 h => bucket_of_pair h b0 b1, fun s₁ s₂ h₁ h₂ hin hpos hpolicy => ?_⟩
  have hlen : s₁.inLen = s₂.inLen := by simpa using congrArg List.length hin
  have hbytes : ∀ a, a < s₂.inLen → inByte s₁ a = inByte s₂ a := fun a ha => by
    rw [← inBytes_getElem s₂ a (by simpa using ha), ← inBytes_getElem s₁ a (by simpa [hlen] using ha)]
    simp only [hin]
  rw [lookup_eq_refLookup h₁, lookup_eq_refLookup h₂, hpolicy, hlen, hpos, refLookup_congr hbytes]

theorem agree_of_lt_agreeing {f : Nat → Byte} {a pos l fuel k : Nat} (h : k < agreeing f a pos l fuel) :
    f (a + (l + k)) = f (pos + (l + k)) := by
  induction fuel generalizing l k with
  | zero => exact absurd h (Nat.not_lt_zero k)
  | succ fuel ih =>
    rw [agreeing_succ] at h
    split_ifs at h with hagree
    · cases k with
      | zero => exact hagree
      | succ k =>
        rw [← Nat.succ_add_eq_add_succ]
        exact ih (Nat.lt_of_succ_lt_succ h)
    · exact absurd h (Nat.not_lt_zero k)

/-- R103's `L(a)` counts bytes that agree. -/
theorem agree_of_lt_refLen {policy : CmpPolicy} {f : Nat → Byte} {n pos a k : Nat} (h : k < refLen policy f n pos a) :
    f (a + k) = f (pos + k) := by
  rw [refLen_eq] at h
  simpa using agree_of_lt_agreeing (h.trans_le (cutLength_le _ _ _))

/-- Where the bytes from `a` on agree with those from `pos` on, they repeat with the distance (R63). -/
theorem repeats_of_agree {f : Nat → Byte} {a pos len : Nat} (hlt : a < pos)
    (hagree : ∀ k, k < len → f (a + k) = f (pos + k)) {k : Nat} (hk : k < len) :
    f (a + k % (pos - a)) = f (pos + k) := by
  induction k using Nat.strong_induction_on with
  | h k ih =>
    rcases Nat.lt_or_ge k (pos - a) with hnear | hfar
    · rw [Nat.mod_eq_of_lt hnear, hagree k hk]
    · calc f (a + k % (pos - a))
        _ = f (a + (k - (pos - a)) % (pos - a)) := by rw [Nat.mod_eq_sub_mod hfar]
        _ = f (pos + (k - (pos - a))) := ih _ (by omega) (by omega)
        _ = f (a + k) := congrArg f (by omega)
        _ = f (pos + k) := hagree k hk

/-- A copy's read index repeats with the distance in the window as with that in the input: where the distance is `W` the
window's is 0, and no copy reaches so far (R63). -/
theorem mod_distance {pos a k : Nat} (hlt : a < pos) (hlive : pos - a ≤ Config.windowSize)
    (hk : k < Config.windowSize) :
    k % (BitVec.ofNat 13 pos - BitVec.ofNat 13 a).toNat = k % (pos - a) := by
  simp only [Config.windowSize] at hlive hk
  have hdist : (BitVec.ofNat 13 pos - BitVec.ofNat 13 a).toNat = (pos - a) % 8192 := by bv_omega
  rw [hdist]
  rcases Nat.lt_or_eq_of_le hlive with hnear | hfar
  · rw [Nat.mod_eq_of_lt hnear]
  · rw [hfar, Nat.mod_self, Nat.mod_zero, Nat.mod_eq_of_lt hk]

/-- A copy from a live position reads the input from there on, again and again up to the cursor (R61, R63). -/
theorem copyByte_of_position {s d : State} (h : s.DictionaryHolds) (hwin : ∀ i, winByte d i = winByte s i)
    (hcur : d.cur = s.cur) {a k : Nat} (hlt : a < s.pos) (hlive : s.pos - a ≤ Config.windowSize)
    (hk : k < Config.windowSize) (len : Nat) :
    copyByte (loadCopy len (BitVec.ofNat 13 a) d) k = inByte s (a + k % (s.pos - a)) := by
  calc copyByte (loadCopy len (BitVec.ofNat 13 a) d) k
    _ = winByte d (BitVec.ofNat 13 a + BitVec.ofNat 13 (k % (d.cur - BitVec.ofNat 13 a).toNat)) :=
      copyByte_eq (loadCopy len (BitVec.ofNat 13 a) d) k hk
    _ = winByte s (BitVec.ofNat 13 (a + k % (s.pos - a))) := by
      rw [hwin, hcur, h.curPos, mod_distance hlt hlive hk, BitVec.ofNat_add]
    _ = inByte s (a + k % (s.pos - a)) := by
      have hmodlt : k % (s.pos - a) < s.pos - a := Nat.mod_lt _ (by omega)
      exact h.window _ (by omega) (by omega)

/-- Settles O45: the copy repeats the input from the lookup's position on, and so does the input at `pos`. -/
theorem lookupIsSound : Obligations.LookupIsSound := by
  intro s d len off h hpos hl hwin hcur
  have hresult := lookupIsItsAbstractForm s h hpos
  rw [hl] at hresult
  obtain ⟨-, -, -, a, ha, hlen, rfl, -⟩ := hresult
  obtain ⟨hlt, hlive⟩ := mem_refUsable ha
  obtain ⟨-, hcap, -⟩ := lookupLengthBounds s len _ hl
  rw [copyBytes_out]
  refine congrArg (d.out ++ ·) (List.map_congr_left fun k hk => ?_)
  have hk : k < len := List.mem_range.mp hk
  rw [copyByte_of_position h hwin hcur hlt hlive ((hk.trans_le hcap).trans (by decide))]
  exact repeats_of_agree hlt (fun j hj => agree_of_lt_refLen (hlen.symm ▸ hj)) hk

end Sys2Proof.Machine
end

section
/-! PROOFS. A slot of ENCODE without a match (spec 41_encoder.md R114, R116): the byte staged and pushed, and its flag bit. -/

namespace Sys2Proof.Machine

theorem encSlot_of_none {s : State} (h : lookup s = none) : encSlot s = nextSlot (encLit s) := by rw [encSlot, h]

theorem winByte_encLit (s : State) (j : WinIx) :
    winByte (encLit s) j = if j = s.cur then inByte s s.pos else winByte s j := by
  rw [winByte_congr (t := encLit s) (s := push (inByte s s.pos) s) rfl rfl, winByte_push]

/-- R116: only the slot's bit is set. -/
theorem flagBit_withFlagBit (f : Byte) {i j : Nat} (hj : j < 8) :
    flagBit (withFlagBit f i) j = (flagBit f j || decide (j = i)) := by
  have hbit : (1#8 <<< i).getLsbD j = decide (j = i) := by
    rw [BitVec.getLsbD_shiftLeft, BitVec.getLsbD_one, Bool.eq_iff_iff]
    simp only [Bool.and_eq_true, Bool.not_eq_true', decide_eq_true_eq, decide_eq_false_iff_not]
    omega
  rw [flagBit, withFlagBit, BitVec.getLsbD_or, hbit, flagBit]

/-- R116: a literal pushes its byte, stages it, and sets its flag bit. -/
theorem encLit_frame (s : State) :
    encLit s = { s with
      win := (encLit s).win, cur := s.cur + 1, cnt := s.cnt + 1, idx := (encLit s).idx, pos := s.pos + 1,
      flagAcc := withFlagBit s.flagAcc s.slot, stage := (encLit s).stage, stageLen := s.stageLen + 1 } := rfl

/-- Settles O46: the step is the slot, and the slot is the literal. -/
theorem encoderEmitsALiteral : Obligations.EncoderEmitsALiteral := by
  intro s hrunning hslot hpos hroom hl
  have hstep : step s = .next (nextSlot (encLit s)) := by
    rw [step_of_running_encode hrunning, encStep_of_slot hslot hpos, encSlot_of_none hl]
  exact ⟨_, hstep, staged_encLit hroom, winByte_encLit s, fun i hi => flagBit_withFlagBit s.flagAcc hi,
    congrArg nextSlot (encLit_frame s)⟩

end Sys2Proof.Machine
end

section
/-! PROOFS. CMD.ENCODE and the step that ends a block (spec 41_encoder.md R110 to R113, R117, R118; 43_host_commands.md
R145, R147): the start from the clear state, the fault on an empty input, and the close. -/

namespace Sys2Proof.Machine

/-- The codes of its three fields make `STATUS` (R37). -/
theorem statusByte_eq {s : State} {state : RunState} {err : ErrCode} {op : OpCode} (hrun : s.run = state)
    (herr : s.err = err) (hop : s.op = op) :
    statusByte s = state.code.setWidth 8 ||| (err.code.setWidth 8 <<< 2) ||| (op.code.setWidth 8 <<< 4) := by
  rw [statusByte, hrun, herr, hop]

theorem beginEncode_of_empty {s : State} (h : s.inLen = 0) : beginEncode s = raiseError .emptyInput 0 s := if_pos h

theorem beginEncode_of_input {s : State} (h : 0 < s.inLen) :
    beginEncode s = openBlock { setBusy (clearInstance s) with pos := 0 } := if_neg (Nat.ne_of_gt h)

/-- Settles O13: the accepted command starts from the clear state, with a block open. -/
theorem encodeCommandStarts : Obligations.EncodeCommandStarts := by
  intro s hrun hlen
  have hexec : exec .cmdEncode s = .next (beginEncode (accept .encode s)) :=
    command_of_not_busy hrun .encode beginEncode
  rw [beginEncode_of_input (s := accept .encode s) hlen] at hexec
  refine ⟨_, hexec, ?_, winByte_of_win_nil rfl, bucket_of_idx_nil rfl, rfl⟩
  exact (statusByte_eq (state := .busy) (err := .noError) (op := .encode) rfl rfl rfl).trans (by decide)

/-- Settles O14: the accepted command faults before it clears anything. -/
theorem encodeOfEmptyInputFaults : Obligations.EncodeOfEmptyInputFaults := by
  intro s hrun hlen
  have hexec : exec .cmdEncode s = .next (beginEncode (accept .encode s)) :=
    command_of_not_busy hrun .encode beginEncode
  rw [beginEncode_of_empty (s := accept .encode s) hlen] at hexec
  refine ⟨_, hexec, ?_, rfl, rfl⟩
  exact (statusByte_eq (state := .fault) (err := .emptyInput) (op := .encode) rfl rfl rfl).trans (by decide)

/-- Where a block ends, ENCODE's step closes it, and opens the next one or is done (R110, R118). -/
theorem encStep_of_blockEnd {s : State} (h : Config.slots ≤ s.slot ∨ s.inLen ≤ s.pos) :
    encStep s = if s.pos < s.inLen then openBlock (encClose s) else finish (encClose s) := if_neg (by omega)

/-- Settles O48: the step is the close, with the next block's open or the end. -/
theorem encoderClosesABlock : Obligations.EncoderClosesABlock := by
  intro s hrunning hblockEnd
  rw [step_of_running_encode hrunning, encStep_of_blockEnd hblockEnd]
  rfl

end Sys2Proof.Machine
end

section
/-! PROOFS. ENCODE ends (spec 41_encoder.md R110 to R118, 70_reset_and_hazards.md R199): each slot consumes input, and each
block but the last has 8 slots. -/

namespace Sys2Proof.Machine

/-- A step before a run that ends. -/
theorem endsWithin_succ {s t u : State} {k : Nat} (hstep : step s = .next u) (h : u.EndsWithin t k) :
    s.EndsWithin t (k + 1) := by
  obtain ⟨j, hj, hrun, hfinished⟩ := h
  exact ⟨j + 1, Nat.succ_le_succ hj, run_succ.mpr ⟨u, hstep, hrun⟩, hfinished⟩

theorem endsWithin_mono {s t : State} {k l : Nat} (hkl : k ≤ l) (h : s.EndsWithin t k) : s.EndsWithin t l := by
  obtain ⟨j, hj, hend⟩ := h
  exact ⟨j, hj.trans hkl, hend⟩

/-- Where every step either ends the operation or makes `m` smaller, a run ends within `m + 1` steps. -/
theorem endsWithin_of_measure {p q : State → Prop} {m : State → Nat} (hq : ∀ t, q t → t.Finished)
    (hstep : ∀ s, p s → ∃ u, step s = .next u ∧ (q u ∨ (p u ∧ m u < m s))) {s : State} (hs : p s) :
    ∃ t, s.EndsWithin t (m s + 1) ∧ q t := by
  induction hm : m s using Nat.strong_induction_on generalizing s with
  | h k ih =>
    obtain ⟨u, hu, hend | ⟨hp, hlt⟩⟩ := hstep s hs
    · exact ⟨u, ⟨0, Nat.le_add_left 1 k, run_succ.mpr ⟨u, hu, rfl⟩, hq u hend⟩, hend⟩
    · obtain ⟨t, ht, hqt⟩ := ih (m u) (hm ▸ hlt) hp rfl
      exact ⟨t, endsWithin_mono (by omega) (endsWithin_succ hu ht), hqt⟩

theorem inBytes_congr {s t : State} (hlen : t.inLen = s.inLen) (hbuf : t.inBuf = s.inBuf) : inBytes t = inBytes s := by
  rw [inBytes, inBytes, hlen, inByte_congr hbuf]

/-- A slot consumes input (R115, R116). -/
theorem encSlot_pos_lt (s : State) : s.pos < (encSlot s).pos := by
  rcases encSlot_cases s with ⟨len, off, hl, he⟩ | ⟨-, he⟩ <;> rw [he]
  · have hmin : 3 ≤ len := (lookup_length hl).1
    rw [encMatch_frame]
    change s.pos < s.pos + len
    omega
  · exact Nat.lt_succ_self s.pos

/-- ENCODE of `bytes` runs: its position counts the bytes pushed, and its open block has an element or will get one. -/
structure State.Encodes (bytes : List Byte) (s : State) : Prop where
  running : s.Running .encode
  noError : s.err = .noError
  input : inBytes s = bytes
  pos_le : s.pos ≤ s.inLen
  pos_eq : s.pos = s.cnt
  slot_le : s.slot ≤ Config.slots
  some_left : 0 < s.slot + (s.inLen - s.pos)

/-- ENCODE of `bytes` is done. -/
structure State.Encoded (bytes : List Byte) (t : State) : Prop where
  run_eq : t.run = .done
  noError : t.err = .noError
  op_eq : t.op = .encode
  input : inBytes t = bytes
  pos_eq : t.pos = bytes.length
  cnt_eq : t.cnt = bytes.length

/-- The steps of ENCODE before its last one, if each slot takes a single byte: a slot for each byte that remains, and a close
for each block but the last. -/
def slotStepsLeft (s : State) : Nat := s.inLen - s.pos + (s.slot + (s.inLen - s.pos) - 1) / Config.slots

theorem encSlot_encodes {s : State} {bytes : List Byte} (h : s.Encodes bytes) (hslot : s.slot < Config.slots)
    (hpos : s.pos < s.inLen) : (encSlot s).Encodes bytes ∧ slotStepsLeft (encSlot s) < slotStepsLeft s := by
  obtain ⟨hrunning, herr, hin, -, hcnt, -, -⟩ := h
  have hlt := encSlot_pos_lt s
  obtain ⟨l, flag, stage, k, hle, -, he⟩ := encSlot_pushes hpos
  rw [he] at hlt ⊢
  have hlt : s.pos < s.pos + l.length := hlt
  refine ⟨⟨hrunning, herr, hin, hle, congrArg (· + l.length) hcnt, hslot, Nat.add_pos_left (Nat.succ_pos _) _⟩, ?_⟩
  change s.inLen - (s.pos + l.length) + (s.slot + 1 + (s.inLen - (s.pos + l.length)) - 1) / 8 <
    s.inLen - s.pos + (s.slot + (s.inLen - s.pos) - 1) / 8
  omega

theorem closed_encodes {s : State} {bytes : List Byte} (h : s.Encodes bytes) (hslot : ¬ s.slot < Config.slots)
    (hpos : s.pos < s.inLen) :
    (openBlock (encClose s)).Encodes bytes ∧ slotStepsLeft (openBlock (encClose s)) < slotStepsLeft s := by
  refine ⟨{ h with slot_le := Nat.zero_le _, some_left := ?_ }, ?_⟩
  · change 0 < 0 + (s.inLen - s.pos)
    omega
  · have hfull : s.slot = 8 := Nat.le_antisymm h.slot_le (Nat.le_of_not_lt hslot)
    change s.inLen - s.pos + (0 + (s.inLen - s.pos) - 1) / 8 < s.inLen - s.pos + (s.slot + (s.inLen - s.pos) - 1) / 8
    omega

theorem finished_encoded {s : State} {bytes : List Byte} (h : s.Encodes bytes) (hpos : ¬ s.pos < s.inLen) :
    (finish (encClose s)).Encoded bytes := by
  obtain ⟨⟨-, hop, -⟩, herr, hin, hle, hcnt, -, -⟩ := h
  have hend : s.pos = bytes.length := by
    rw [← hin, inBytes_length]
    omega
  exact ⟨rfl, herr, hop, hin, hend, hcnt.symm.trans hend⟩

theorem step_encodes {s : State} {bytes : List Byte} (h : s.Encodes bytes) :
    ∃ u, step s = .next u ∧ (u.Encoded bytes ∨ (u.Encodes bytes ∧ slotStepsLeft u < slotStepsLeft s)) := by
  refine ⟨_, step_of_running_encode h.running, ?_⟩
  rcases encStep_cases s with ⟨hslot, hpos, he⟩ | ⟨hslot, hpos, he⟩ | ⟨hpos, he⟩ <;> rw [he]
  · exact .inr (encSlot_encodes h hslot hpos)
  · exact .inr (closed_encodes h hslot hpos)
  · exact .inl (finished_encoded h hpos)

/-- The accepted CMD.ENCODE of a non-empty input runs (R112, R113). -/
theorem beginEncode_encodes {s : State} (hin : s.hostIn = []) (hlen : 0 < s.inLen) :
    (beginEncode (accept .encode s)).Encodes (inBytes s) := by
  rw [beginEncode_of_input (s := accept .encode s) hlen]
  refine ⟨⟨rfl, rfl, hin⟩, rfl, rfl, Nat.zero_le _, rfl, Nat.zero_le _, ?_⟩
  change 0 < 0 + (s.inLen - 0)
  omega

/-- ENCODE of a non-empty input is done within a step for the command, one for each byte and one for each 8 bytes. -/
theorem encode_endsWithin {s : State} (hcmd : s.Commanded 2) (hlen : 0 < s.inLen) :
    ∃ t, s.EndsWithin t (1 + s.inLen + (s.inLen + 7) / 8) ∧ t.Encoded (inBytes s) := by
  have hstart := beginEncode_encodes (s := { s with hostIn := [] }) rfl hlen
  obtain ⟨t, hend, hencoded⟩ :=
    endsWithin_of_measure (fun t ht => .inl ht.run_eq) (fun u hu => step_encodes hu) hstart
  refine ⟨t, endsWithin_mono ?_ (endsWithin_succ (step_of_commanded_encode hcmd) hend), hencoded⟩
  rw [beginEncode_of_input (s := accept .encode { s with hostIn := [] }) hlen]
  change s.inLen - 0 + (0 + (s.inLen - 0) - 1) / 8 + 1 + 1 ≤ 1 + s.inLen + (s.inLen + 7) / 8
  omega

/-- Settles O49: the run is done within the bound, and its `STATUS` is that of a finished ENCODE. -/
theorem encodeEndsDone : Obligations.EncodeEndsDone := by
  intro s hcmd hlen
  obtain ⟨t, hend, hrun, herr, hop, hin, hpos, hcnt⟩ := encode_endsWithin hcmd hlen
  rw [inBytes_length] at hpos hcnt
  exact ⟨t, hend, (statusByte_eq hrun herr hop).trans (by decide), hpos, hcnt, hin⟩

end Sys2Proof.Machine
end

section
/-! PROOFS. What the greedy parse gives (spec 40_dictionary.md R103, R105, R106; 41_encoder.md R114, R120, R123): elements
that cover the input, so a bounded stream, and the same ones for the same input. -/

namespace Sys2Proof.Machine

/-- The closed form of LOOKUP answers 3 to 10 bytes that remain (R96, R101). -/
theorem refLookup_length {policy : CmpPolicy} {f : Nat → Byte} {n pos len : Nat} {off : WinIx}
    (h : refLookup policy f n pos = some (len, off)) : 3 ≤ len ∧ len ≤ 10 ∧ pos + len ≤ n := by
  have hresult := refLookup_isLookupResult policy f n pos
  rw [h] at hresult
  obtain ⟨-, htwo, hmin, a, -, rfl, -, -⟩ := hresult
  have hmax := refLen_le policy f n pos a
  have hcap : refMax n pos ≤ 10 := Nat.min_le_left _ _
  have hleft : refMax n pos ≤ n - pos := Nat.min_le_right _ _
  exact ⟨hmin, hmax.trans hcap, by omega⟩

/-- Induction over the greedy parse: the end of the input, a literal, or a match with the lookup's result (R114). -/
theorem refParse_induction {policy : CmpPolicy} {f : Nat → Byte} {n : Nat} {p : Nat → List Instr → Prop}
    (hend : ∀ pos, n ≤ pos → p pos [])
    (hlit : ∀ pos els, pos < n → p (pos + 1) els → p pos (.lit (f pos) :: els))
    (hmatch : ∀ pos len off els, refLookup policy f n pos = some (len, off) → p (pos + len) els →
      p pos (.matchTok len off :: els))
    {fuel pos : Nat} (hfuel : n ≤ pos + fuel) : p pos (refParse policy f n fuel pos) := by
  induction fuel generalizing pos with
  | zero => exact hend pos hfuel
  | succ fuel ih =>
    rw [refParse]
    split
    · exact hend pos ‹_›
    · split
      · rename_i len off hl
        obtain ⟨hmin, -, -⟩ := refLookup_length hl
        exact hmatch pos len off _ hl (ih (by omega))
      · exact hlit pos _ (Nat.lt_of_not_le ‹_›) (ih (by omega))

section
variable (policy : CmpPolicy) (f : Nat → Byte) (n : Nat)

theorem refParse_isElement : ∀ e ∈ refParse policy f n n 0, IsElement e := by
  refine refParse_induction (p := fun _ els => ∀ e ∈ els, IsElement e) (fun _ _ => by simp) ?_ ?_ (Nat.le_add_left n 0)
  · exact fun pos els _ ih => List.forall_mem_cons.mpr ⟨trivial, ih⟩
  · intro pos len off els hl ih
    obtain ⟨hmin, hmax, -⟩ := refLookup_length hl
    exact List.forall_mem_cons.mpr ⟨⟨hmin, hmax⟩, ih⟩

/-- An element covers at least one input byte, and its payload is no longer than what it covers (R115, R116). -/
theorem refParse_size :
    (refParse policy f n n 0).length ≤ n ∧ ((refParse policy f n n 0).flatMap encode).length ≤ n := by
  refine refParse_induction (p := fun pos els => els.length ≤ n - pos ∧ (els.flatMap encode).length ≤ n - pos)
    (fun _ _ => by simp) ?_ ?_ (Nat.le_add_left n 0)
  · intro pos els hpos ⟨hlen, hsize⟩
    have hencode : (encode (.lit (f pos))).length = 1 := rfl
    rw [List.flatMap_cons, List.length_append, List.length_cons, hencode]
    omega
  · intro pos len off els hl ⟨hlen, hsize⟩
    obtain ⟨hmin, -, hleft⟩ := refLookup_length hl
    have hencode : (encode (.matchTok len off)).length = 2 := rfl
    rw [List.flatMap_cons, List.length_append, List.length_cons, hencode]
    omega

end

/-- The stream of SLOTS: the payloads, and a flag byte for each 8 elements (R86, R117). -/
theorem listingBytes_expandSlots_length (els : List Instr) :
    (listingBytes (expandSlots els)).length = (els.flatMap encode).length + (els.length + 7) / 8 := by
  induction els using slots_induction with
  | hnil => rfl
  | hblock block rest hne hlen hlast ih =>
    have hpos : 0 < block.length := List.length_pos_iff_ne_nil.mpr hne
    have hlen : block.length ≤ 8 := hlen
    rw [expandSlots_append hne hlen hlast, listingBytes_append, listingBytes_expandBlock, List.length_append,
      List.length_cons, ih, List.flatMap_append, List.length_append, List.length_append]
    rcases hlast with hfull | rfl
    · have hfull : block.length = 8 := hfull
      omega
    · simp only [List.flatMap_nil, List.length_nil]
      omega

/-- Settles O50: the stream begins with a flag byte and a literal, and is that of a parse which covers the input. -/
theorem encodeOutputSize : Obligations.EncodeOutputSize := by
  intro s t hcmd hlen hend
  obtain ⟨flag, rest, hbegin, -, -⟩ := encodeBeginsWithLiterals s t hcmd hlen hend
  have hbytes := encodeIsItsGreedyParse s t hcmd hend
  obtain ⟨hcount, hsize⟩ := refParse_size s.cfg.cmpPolicy (inByte s) s.inLen
  constructor
  · rw [State.outLen, hbegin, List.length_cons, List.length_cons]
    omega
  · rw [State.outLen, hbytes, encodeInput, listingBytes_expandSlots_length]
    omega

/-- The greedy parse reads the input only (R103, R114). -/
theorem refParse_congr (policy : CmpPolicy) {f g : Nat → Byte} {n : Nat} (hfg : ∀ a, a < n → f a = g a)
    (fuel pos : Nat) : refParse policy f n fuel pos = refParse policy g n fuel pos := by
  induction fuel generalizing pos with
  | zero => rfl
  | succ fuel ih =>
    rw [refParse, refParse, refLookup_congr hfg]
    by_cases hpos : n ≤ pos
    · rw [if_pos hpos, if_pos hpos]
    · rw [if_neg hpos, if_neg hpos]
      cases refLookup policy g n pos with
      | none => exact congrArg₂ _ (congrArg Instr.lit (hfg pos (Nat.lt_of_not_le hpos))) (ih _)
      | some result => exact congrArg _ (ih _)

/-- Equal inputs are equal byte by byte. -/
theorem inByte_eq_of_inBytes_eq {s t : State} (h : inBytes s = inBytes t) {a : Nat} (ha : a < t.inLen) :
    inByte s a = inByte t a := by
  rw [← inBytes_getElem t a (by simpa using ha), ← inBytes_getElem s a (by rw [h]; simpa using ha)]
  simp only [h]

/-- A codec that is not BUSY and that the host leaves alone keeps its state (R174). -/
theorem step_of_resting {s : State} (hin : s.hostIn = []) (hrun : s.run ≠ .busy) : step s = .next s := by
  apply step_of_plan_move
  rw [plan_of_hostIn_nil hin]
  rcases planCodec_cases s with ⟨-, hp⟩ | ⟨hbusy, -⟩ | ⟨hbusy, -⟩ | ⟨hbusy, -⟩
  · exact hp
  · exact absurd hbusy hrun
  · exact absurd hbusy hrun
  · exact absurd hbusy hrun

/-- A run of ENCODE that the host leaves alone: under way or done, but not in FAULT. -/
structure State.EncodesWithoutFault (s : State) : Prop where
  noHost : s.hostIn = []
  op_eq : s.op = .encode
  noFault : s.run = .busy ∨ s.run = .done

theorem step_encodesWithoutFault {s t : State} (hs : s.EncodesWithoutFault) (h : step s = .next t) :
    t.EncodesWithoutFault := by
  obtain ⟨hin, hop, hbusy | hdone⟩ := id hs
  · cases (step_of_running_encode ⟨hbusy, hop, hin⟩).symm.trans h
    rcases encStep_cases s with ⟨-, hpos, he⟩ | ⟨-, -, he⟩ | ⟨-, he⟩ <;> rw [he]
    · obtain ⟨l, flag, stage, k, -, -, hslot⟩ := encSlot_pushes hpos
      rw [hslot]
      exact { hs with }
    · exact { hs with }
    · exact { hs with noFault := .inr rfl }
  · cases (step_of_resting hin (by simp [hdone])).symm.trans h
    exact hs

theorem step_keeps_fault {s t : State} (hs : s.hostIn = [] ∧ s.run = .fault) (h : step s = .next t) :
    t.hostIn = [] ∧ t.run = .fault := by
  obtain ⟨hin, hrun⟩ := id hs
  cases (step_of_resting hin (by simp [hrun])).symm.trans h
  exact hs

/-- ENCODE of an empty input ends in FAULT, and of any other DONE (R111, R118). -/
theorem run_of_encode_end {s t : State} (hcmd : s.Commanded 2) (hend : s.EndsAt t) :
    t.run = if s.inLen = 0 then .fault else .done := by
  have hfirst := step_of_commanded_encode hcmd
  split_ifs with hlen
  · rw [beginEncode_of_empty (s := accept .encode { s with hostIn := [] }) hlen] at hfirst
    obtain ⟨-, hfault⟩ := endsAt_keeps (fun u v hu huv => step_keeps_fault hu huv) hfirst ⟨rfl, rfl⟩ hend
    exact hfault
  · rw [beginEncode_of_input (s := accept .encode { s with hostIn := [] }) (Nat.pos_of_ne_zero hlen)] at hfirst
    obtain ⟨-, -, hrun⟩ :=
      endsAt_keeps (fun u v hu huv => step_encodesWithoutFault hu huv) hfirst ⟨rfl, rfl, .inl rfl⟩ hend
    obtain ⟨_, _, -, -, hfinished⟩ := hend
    refine hrun.resolve_left fun hbusy => ?_
    simp [State.Finished, hbusy] at hfinished

/-- Settles O51: the parse is that of the input's bytes, and whether the run faults is said by their number. -/
theorem encodeIsAFunctionOfItsInput : Obligations.EncodeIsAFunctionOfItsInput := by
  intro s₁ s₂ t₁ t₂ h₁ h₂ hin hpolicy hend₁ hend₂
  have hlen : s₁.inLen = s₂.inLen := by simpa using congrArg List.length hin
  have hparse := refParse_congr s₂.cfg.cmpPolicy (fun a => inByte_eq_of_inBytes_eq hin (a := a)) s₂.inLen 0
  constructor
  · rw [encodeIsItsGreedyParse s₁ t₁ h₁ hend₁, encodeIsItsGreedyParse s₂ t₂ h₂ hend₂, hpolicy, hlen, encodeInput, hparse,
      encodeInput]
  · rw [run_of_encode_end h₁ hend₁, run_of_encode_end h₂ hend₂, hlen]

end Sys2Proof.Machine
end

section
/-! PROOFS. DECODE answers its stream function (spec 42_decoder.md R125 to R136, R139): each step keeps what the unread input
decodes to, and consumes input until the run is over. -/

namespace Sys2Proof.Machine

/-- The input bytes that the decoder has not consumed. -/
def unread (s : State) : List Byte := (inBytes s).drop s.ip

theorem unread_of_end {s : State} (h : s.inLen ≤ s.ip) : unread s = [] :=
  List.drop_eq_nil_of_le (by rwa [inBytes_length])

theorem unread_cons {s : State} (h : s.ip < s.inLen) : unread s = inByte s s.ip :: (inBytes s).drop (s.ip + 1) := by
  rw [unread, List.drop_eq_getElem_cons (by rwa [inBytes_length]), inBytes_getElem]

theorem unread_cons_cons {s : State} (h : 2 ≤ s.inLen - s.ip) :
    unread s = inByte s s.ip :: inByte s (s.ip + 1) :: (inBytes s).drop (s.ip + 2) := by
  have hlt : s.ip + 1 < (inBytes s).length := by
    rw [inBytes_length]
    omega
  rw [unread_cons (by omega), List.drop_eq_getElem_cons hlt, inBytes_getElem]

theorem unread_of_one {s : State} (h : s.inLen - s.ip = 1) : unread s = [inByte s s.ip] := by
  rw [unread_cons (by omega), List.drop_eq_nil_of_le (by rw [inBytes_length]; omega)]

/-- The slot that the decoder is at, as its stream function counts it: none where a flag byte comes next (R128). -/
def streamSlot (s : State) : Option (Byte × Nat) :=
  if s.ip = 0 ∨ Config.slots ≤ s.slot then none else some (s.flagSr, s.slot)

theorem streamSlot_of_flagByte {s : State} (h : contextAt s = .flagByte) : streamSlot s = none := by
  unfold contextAt at h
  split_ifs at h with hstart
  exact if_pos hstart

theorem streamSlot_of_literal {s : State} (h : contextAt s = .literal) :
    streamSlot s = some (s.flagSr, s.slot) ∧ s.flagSr.getLsbD s.slot = true := by
  unfold contextAt at h
  split_ifs at h with hstart hbit
  exact ⟨if_neg hstart, hbit⟩

theorem streamSlot_of_token {s : State} (h : contextAt s = .token) :
    streamSlot s = some (s.flagSr, s.slot) ∧ s.flagSr.getLsbD s.slot = false := by
  unfold contextAt at h
  split_ifs at h with hstart hbit
  exact ⟨if_neg hstart, Bool.eq_false_of_not_eq_true hbit⟩

/-- After a payload the decoder is at the slot after it (R128). -/
theorem streamSlot_next {s u : State} (hip : 0 < u.ip) (hflag : u.flagSr = s.flagSr) (hslot : u.slot = s.slot + 1) :
    streamSlot u = slotAfter s.flagSr s.slot := by
  rw [streamSlot, slotAfter, hflag, hslot]
  by_cases hroom : s.slot + 1 < Config.slots
  · rw [if_pos hroom, if_neg (by omega)]
  · rw [if_neg hroom, if_pos (by omega)]

/-- A copy appends what the history of `OUT` gives (R61, R63, R137). -/
theorem copyBytes_out_eq_copyHistory {s : State} (h : s.WindowHolds) (n : Nat) :
    (copyBytes n s).out = copyHistory s.cfg.winFill n s.src s.out := by
  induction n generalizing s with
  | zero => rfl
  | succ n ih =>
    have hone : (copyOne s).WindowHolds := copyBytes_windowHolds h 1
    rw [copyBytes, ih hone, copyOne_out, h.window]
    rfl

/-- What the stream decodes to from here. -/
def streamRest (s : State) : StreamResult := decodeFrom s.cfg.winFill (unread s) (streamSlot s) s.out

/-- At the end of the input the stream is decoded (R133, R136). -/
theorem streamRest_of_end {s : State} (h : s.inLen ≤ s.ip) : streamRest s = .done s.out := by
  rw [streamRest, unread_of_end h, decodeFrom_nil]

/-- A token cut in half is the stream's error (R134). -/
theorem streamRest_of_cutToken {s : State} (hctx : contextAt s = .token) (hone : s.inLen - s.ip = 1) :
    streamRest s = .formatError s.out := by
  obtain ⟨hslot, hbit⟩ := streamSlot_of_token hctx
  rw [streamRest, unread_of_one hone, hslot, decodeFrom, if_neg (by simp [hbit])]

theorem streamRest_flag {s : State} (hctx : contextAt s = .flagByte) (hip : s.ip < s.inLen) :
    streamRest { advanceIp 1 s with flagSr := inByte s s.ip, slot := 0 } = streamRest s := by
  rw [streamRest, streamRest, unread_cons hip, streamSlot_of_flagByte hctx, decodeFrom]
  rfl

theorem streamRest_lit {s : State} (hctx : contextAt s = .literal) (hip : s.ip < s.inLen) :
    streamRest (nextSlot (writeByte (inByte s s.ip) (advanceIp 1 s))) = streamRest s := by
  obtain ⟨hslot, hbit⟩ := streamSlot_of_literal hctx
  have hnext : streamSlot (nextSlot (writeByte (inByte s s.ip) (advanceIp 1 s))) = slotAfter s.flagSr s.slot :=
    streamSlot_next (Nat.succ_pos s.ip) rfl rfl
  rw [streamRest, hnext, streamRest, unread_cons hip, hslot, decodeFrom_lit hbit]
  rfl

theorem streamRest_matchTok {s : State} (hwin : s.WindowHolds) (hctx : contextAt s = .token) (htwo : 2 ≤ s.inLen - s.ip)
    {token : Token} (htoken : token = tokenOfBytes (inByte s s.ip) (inByte s (s.ip + 1))) :
    streamRest (nextSlot (copyBytes (tokenLen token) (loadCopy (tokenLen token) (tokenOff token) (advanceIp 2 s)))) =
      streamRest s := by
  obtain ⟨hslot, hbit⟩ := streamSlot_of_token hctx
  have hload : (loadCopy (tokenLen token) (tokenOff token) (advanceIp 2 s)).WindowHolds := { hwin with }
  rw [copyBytes_frame, copyBytes_out_eq_copyHistory hload, streamRest, streamRest, unread_cons_cons htwo,
    hslot, decodeFrom, if_neg (by simp [hbit]), ← tokenLen_tokenOfBytes, ← tokenOff_tokenOfBytes, ← htoken]
  exact congrArg (decodeFrom _ _ · _) (streamSlot_next (s := s) (Nat.succ_pos (s.ip + 1)) rfl rfl)

/-- DECODE of `bytes` runs and has `result` ahead of it. -/
structure State.Decodes (bytes : List Byte) (result : StreamResult) (s : State) : Prop where
  running : s.Running .decode
  noError : s.err = .noError
  errPos_eq : s.errPos = 0
  input : inBytes s = bytes
  ip_le : s.ip ≤ s.inLen
  windowHolds : s.WindowHolds
  result_eq : streamRest s = result

/-- DECODE of `n` bytes is over and has answered the stream's result (R133, R134, R167). -/
def State.Answers (n : Nat) (t : State) : StreamResult → Prop
  | .done out =>
    t.run = .done ∧ t.err = .noError ∧ t.op = .decode ∧ t.errPos = 0 ∧ t.out = out ∧ t.ip = n
  | .formatError out =>
    t.run = .fault ∧ t.err = .format ∧ t.op = .decode ∧ t.errPos + 1 = n ∧ t.out = out ∧ t.ip = t.errPos

theorem State.Answers.finished {n : Nat} {t : State} {result : StreamResult} (h : t.Answers n result) : t.Finished := by
  cases result with
  | done out =>
    obtain ⟨hrun, -⟩ := h
    exact .inl hrun
  | formatError out =>
    obtain ⟨hrun, -⟩ := h
    exact .inr hrun

/-- The input bytes that DECODE still has to consume. -/
def bytesLeft (s : State) : Nat := s.inLen - s.ip

theorem step_decodes {s : State} {bytes : List Byte} {result : StreamResult} (h : s.Decodes bytes result) :
    ∃ u, step s = .next u ∧ (u.Answers bytes.length result ∨ (u.Decodes bytes result ∧ bytesLeft u < bytesLeft s)) := by
  obtain ⟨⟨hrun, hop, hin⟩, herr, herrPos, hinput, hip, hwin, hresult⟩ := h
  have hlen : bytes.length = s.inLen := by rw [← hinput, inBytes_length]
  obtain ⟨u, hu⟩ : ∃ u, step s = .next u := step_next_of_proceeds (by
    rw [plan_of_hostIn_nil hin]
    exact planCodec_proceeds fun _ => .inr hop)
  have hkeeps : u.op = .decode → u.WindowHolds := everyStepKeepsTheDecodedWindow s u (fun _ => hwin) hu
  refine ⟨u, hu, ?_⟩
  cases codecStep_of_step hin hu with
  | wait hrest => exact absurd hrun hrest
  | encode _ henc => simp [hop] at henc
  | decodeEnd _ _ hend =>
    rw [← hresult, streamRest_of_end hend, hlen]
    exact .inl ⟨rfl, herr, hop, herrPos, rfl, Nat.le_antisymm hip hend⟩
  | flag hsel =>
    obtain ⟨-, -, hlt, hctx⟩ := hsel
    exact .inr ⟨⟨⟨hrun, hop, hin⟩, herr, herrPos, hinput, hlt, hkeeps hop, (streamRest_flag hctx hlt).trans hresult⟩,
      Nat.sub_succ_lt_self s.inLen s.ip hlt⟩
  | lit hsel =>
    obtain ⟨-, -, hlt, hctx⟩ := hsel
    exact .inr ⟨⟨⟨hrun, hop, hin⟩, herr, herrPos, hinput, hlt, hkeeps hop, (streamRest_lit hctx hlt).trans hresult⟩,
      Nat.sub_succ_lt_self s.inLen s.ip hlt⟩
  | matchTok token hsel htoken htwo =>
    obtain ⟨-, -, hlt, hctx⟩ := hsel
    have hrest := (streamRest_matchTok hwin hctx htwo htoken).trans hresult
    rw [copyBytes_frame] at hkeeps hrest ⊢
    refine .inr ⟨⟨⟨hrun, hop, hin⟩, herr, herrPos, hinput, ?_, hkeeps hop, hrest⟩, ?_⟩
    · change s.ip + 2 ≤ s.inLen
      omega
    · change s.inLen - (s.ip + 2) < s.inLen - s.ip
      omega
  | cutToken hsel hone =>
    obtain ⟨-, -, hlt, hctx⟩ := hsel
    rw [← hresult, streamRest_of_cutToken hctx hone, hlen]
    refine .inl ⟨rfl, rfl, hop, ?_, rfl, rfl⟩
    change s.ip + 1 = s.inLen
    omega

/-- The accepted CMD.DECODE has its whole stream ahead of it (R125, R126). -/
theorem beginDecode_decodes {s : State} (hin : s.hostIn = []) :
    (beginDecode (accept .decode s)).Decodes (inBytes s) (decodeStream s.cfg.winFill (inBytes s)) where
  running := ⟨rfl, rfl, hin⟩
  noError := rfl
  errPos_eq := rfl
  input := rfl
  ip_le := Nat.zero_le _
  windowHolds := { clearInstance_windowHolds (accept .decode s) with }
  result_eq := rfl

/-- DECODE answers its stream function, within a step for the command, one for each byte and one for the end. -/
theorem decode_endsWithin {s : State} (hcmd : s.Commanded 3) :
    ∃ t, s.EndsWithin t (s.inLen + 2) ∧ t.Answers s.inLen (decodeStream s.cfg.winFill (inBytes s)) := by
  have hstart := beginDecode_decodes (s := { s with hostIn := [] }) rfl
  obtain ⟨t, hend, hanswers⟩ :=
    endsWithin_of_measure (fun t ht => State.Answers.finished ht) (fun u hu => step_decodes hu) hstart
  rw [inBytes_length] at hanswers
  exact ⟨t, endsWithin_succ (step_of_commanded_decode hcmd) hend, hanswers⟩

end Sys2Proof.Machine
end

section
/-! PROOFS. The round trip (spec 40_dictionary.md R107, 41_encoder.md R122): the elements of the greedy parse, decoded one
after the other, give the input. -/

namespace Sys2Proof.Machine

/-- Among the bytes before `n` the one at a live position is the newest of its window index (R61). -/
theorem historyByte_of_position (fill : Byte) (f : Nat → Byte) {n a : Nat} (hlt : a < n)
    (hlive : n - a ≤ Config.windowSize) : historyByte fill ((List.range n).map f) (BitVec.ofNat 13 a) = f a := by
  simp only [Config.windowSize] at hlive
  have hindex : (BitVec.ofNat 13 a).toNat = a % 8192 := BitVec.toNat_ofNat a 13
  have hnewest : a % 8192 + 8192 * ((n - 1 - a % 8192) / 8192) = a := by omega
  rw [historyByte, hindex, List.length_map, List.length_range, if_pos (by omega), hnewest]
  simp [hlt]

/-- Where the input from `a` on agrees with that from `pos` on, a copy from `a` continues the input (R63, R107). -/
theorem copyHistory_of_agree (fill : Byte) (f : Nat → Byte) {len a pos : Nat} (hlt : a < pos)
    (hlive : pos - a ≤ Config.windowSize) (hagree : ∀ k, k < len → f (a + k) = f (pos + k)) :
    copyHistory fill len (BitVec.ofNat 13 a) ((List.range pos).map f) = (List.range (pos + len)).map f := by
  induction len generalizing a pos with
  | zero => rfl
  | succ len ih =>
    have hfirst : historyByte fill ((List.range pos).map f) (BitVec.ofNat 13 a) = f pos :=
      (historyByte_of_position fill f hlt hlive).trans (hagree 0 (Nat.succ_pos len))
    have hnext : BitVec.ofNat 13 a + 1 = BitVec.ofNat 13 (a + 1) := (BitVec.ofNat_add a 1).symm
    have hgrown : (List.range pos).map f ++ [f pos] = (List.range (pos + 1)).map f := by
      rw [List.range_succ, List.map_append, List.map_singleton]
    rw [copyHistory, hfirst, hnext, hgrown, ih (by omega) (by omega) fun k hk => ?_]
    · congr 2
      omega
    · have hk := hagree (k + 1) (Nat.succ_lt_succ hk)
      rwa [Nat.add_assoc, Nat.add_assoc, Nat.add_comm 1 k]

/-- A lookup's match, decoded after the bytes before `pos`, gives the bytes it covers (R107). -/
theorem applyElement_of_refLookup {policy : CmpPolicy} {f : Nat → Byte} {n pos len : Nat} {off : WinIx}
    (h : refLookup policy f n pos = some (len, off)) (fill : Byte) :
    applyElement fill ((List.range pos).map f) (.matchTok len off) = (List.range (pos + len)).map f := by
  have hresult := refLookup_isLookupResult policy f n pos
  rw [h] at hresult
  obtain ⟨-, -, -, a, ha, rfl, rfl, -⟩ := hresult
  obtain ⟨hlt, hlive⟩ := mem_refUsable ha
  exact copyHistory_of_agree fill f hlt hlive fun k hk => agree_of_lt_refLen hk

/-- The elements of the greedy parse decode to the input. -/
theorem foldl_applyElement_refParse (fill : Byte) (policy : CmpPolicy) (f : Nat → Byte) (n : Nat) :
    (refParse policy f n n 0).foldl (applyElement fill) [] = (List.range n).map f := by
  refine refParse_induction (p := fun pos els =>
    pos ≤ n → els.foldl (applyElement fill) ((List.range pos).map f) = (List.range n).map f)
    ?_ ?_ ?_ (Nat.le_add_left n 0) (Nat.zero_le n)
  · intro pos hend hle
    rw [Nat.le_antisymm hle hend]
    rfl
  · intro pos els hpos ih _
    rw [← ih hpos, List.range_succ, List.map_append]
    rfl
  · intro pos len off els hl ih _
    obtain ⟨-, -, hleft⟩ := refLookup_length hl
    rw [List.foldl_cons, applyElement_of_refLookup hl, ih hleft]

/-- The closed form of ENCODE, decoded, is its input (R122). -/
theorem decodeStream_encodeInput (fill : Byte) (policy : CmpPolicy) (f : Nat → Byte) (n : Nat) :
    decodeStream fill (encodeInput policy f n) = .done ((List.range n).map f) := by
  rw [encodeInput, slotsDecodeElementByElement fill _ (refParse_isElement policy f n), foldl_applyElement_refParse]

/-- Settles O54: ENCODE is done with its closed form, and DECODE answers the stream function of it. -/
theorem decodeOfEncodeReturnsTheInput : Obligations.DecodeOfEncodeReturnsTheInput := by
  intro s hcmd hlen
  obtain ⟨t, hend, hencoded⟩ := encode_endsWithin hcmd hlen
  have hstream := encodeIsItsGreedyParse s t hcmd ⟨_, hend⟩
  refine ⟨t, ⟨_, hend⟩, hencoded.run_eq, fun u hu hin => ?_⟩
  obtain ⟨v, hv, hanswers⟩ := decode_endsWithin hu
  rw [hin, hstream, decodeStream_encodeInput] at hanswers
  obtain ⟨hrun, herr, -, -, hout, -⟩ := hanswers
  exact ⟨v, ⟨_, hv⟩, hrun, herr, hout⟩

end Sys2Proof.Machine
end

section
/-! PROOFS. DECODE and its elements (spec 42_decoder.md R125 to R139): the accepted command, what FLAG and LIT change, the end
of the input, the token cut in half, and the outcome of the whole run. -/

namespace Sys2Proof.Machine

/-- Settles O15: the accepted command clears the instance, whose window then reads `WIN_FILL`. -/
theorem decodeCommandStarts : Obligations.DecodeCommandStarts := by
  intro s hrun
  have hexec : exec .cmdDecode s = .next (beginDecode (accept .decode s)) :=
    command_of_not_busy hrun .decode beginDecode
  refine ⟨_, hexec, ?_, winByte_of_win_nil rfl, rfl⟩
  exact (statusByte_eq (state := .busy) (err := .noError) (op := .decode) rfl rfl rfl).trans (by decide)

/-- Where DECODE runs undisturbed, a step follows the decoder's plan (R125). -/
theorem plan_of_running_decode {s : State} (h : s.Running .decode) : plan s = planDecode s := by
  obtain ⟨hrun, hop, hin⟩ := h
  rw [plan_of_hostIn_nil hin, planCodec_of_decode hrun hop]

/-- The next byte, read as a flag byte, is FLAG (R127). -/
theorem decode_flagByte_operandBytes {s : State} (h : s.ip < s.inLen) :
    ∃ rest, decode .flagByte (operandBytes s) = .ok (.flag (inByte s s.ip)) rest := by
  rw [operandBytes_eq, if_neg (Nat.not_le_of_lt h)]
  split_ifs
  · exact ⟨[], rfl⟩
  · exact ⟨[inByte s (s.ip + 1)], rfl⟩

/-- Settles O23: FLAG writes `flag_sr`, `ip` and `slot`, and the step runs FLAG with the byte at `ip`. -/
theorem flagResultAndFrame : Obligations.FlagResultAndFrame := by
  intro s hsel
  have hexec : ∀ v, exec (.flag v) s = .next { s with flagSr := v, ip := s.ip + 1, slot := 0 } := fun v =>
    execFlag_next.mpr ⟨hsel, rfl⟩
  refine ⟨hexec, fun hin => ?_⟩
  have ⟨_, _, hip, _⟩ := hsel
  obtain ⟨rest, hdecode⟩ := decode_flagByte_operandBytes hip
  obtain ⟨hrunsElement, -⟩ := stepRunsTheDecodedInstruction
  rw [hrunsElement s .flagByte _ rest hin hsel hdecode, hexec]
  rfl

/-- Settles O24: LIT is one WRITE, after `ip` is advanced. -/
theorem litResultAndFrame : Obligations.LitResultAndFrame := fun b s hsel =>
  ⟨writeByte b (advanceIp 1 s), execLit_next.mpr ⟨hsel, rfl⟩, winByte_writeByte b (advanceIp 1 s), fun _ => rfl, rfl⟩

/-- A token's lone first byte is planned as FormatError (R134). -/
theorem planDecode_of_cutToken {s : State} (hctx : contextAt s = .token) (hone : s.inLen - s.ip = 1) :
    planDecode s = .move (raiseError .format s.ip s) := by
  have hlt : ¬ s.inLen ≤ s.ip := by omega
  rw [planDecode, if_neg hlt, hctx, operandBytes_eq, if_neg hlt, if_pos hone, decode]

/-- Settles O27: MATCH tests for its second byte first, and the step's plan is the same fault entry. -/
theorem matchWithOneByteLeftFaults : Obligations.MatchWithOneByteLeftFaults := by
  intro len off s hsel hone
  have ⟨hrun, hop, _, hctx⟩ := hsel
  refine ⟨execMatchTok_next.mpr ⟨hsel, (if_pos (by omega)).symm⟩, fun hin => step_of_plan_move ?_⟩
  rw [plan_of_running_decode ⟨hrun, hop, hin⟩]
  exact planDecode_of_cutToken hctx hone

/-- Settles O30: the test for remaining input comes before the slot and its flag bit. -/
theorem decodeEndsWhereInputEnds : Obligations.DecodeEndsWhereInputEnds := by
  intro s hrunning hend
  apply step_of_plan_move
  rw [plan_of_running_decode hrunning, planDecode, if_pos hend]
  rfl

/-- Settles O52: the run's answer is the stream function's, and its fields give `STATUS`. -/
theorem decodeIsItsStreamFunction : Obligations.DecodeIsItsStreamFunction := by
  intro s hcmd
  obtain ⟨t, hend, hanswers⟩ := decode_endsWithin hcmd
  refine ⟨t, hend, ?_⟩
  generalize decodeStream s.cfg.winFill (inBytes s) = result at hanswers ⊢
  cases result with
  | done out | formatError out =>
    obtain ⟨hrun, herr, hop, hrest⟩ := hanswers
    exact ⟨(statusByte_eq hrun herr hop).trans (by decide), hrest⟩

end Sys2Proof.Machine
end

section
/-! PROOFS. What the decoder's window holds of the output (spec 42_decoder.md R132, R133): its last `W` bytes, and below the
cursor those after the last whole multiple of `W`. -/

namespace Sys2Proof.Machine

/-- Each of the last `W` output bytes is in its cell (R61, R133). -/
theorem State.WindowHolds.winByte_of_live {s : State} (h : s.WindowHolds) {q : Nat} (hlt : q < s.outLen)
    (hlive : s.outLen ≤ q + 8192) : winByte s (BitVec.ofNat 13 q) = s.out.getD q 0 := by
  have hout : s.out = (List.range s.out.length).map fun q => s.out.getD q 0 := by
    refine List.ext_getElem (by simp) fun k hk _ => ?_
    simp [hk]
  rw [h.window]
  exact (congrArg (historyByte _ · _) hout).trans (historyByte_of_position _ _ hlt (Nat.sub_le_iff_le_add'.mpr hlive))

/-- Settles O38: the bytes after the last whole multiple of `W` are among the last `W`, and their cells are counted from 0
to the cursor. -/
theorem windowHoldsTheLastBytes : Obligations.WindowHoldsTheLastBytes := by
  intro s h
  have hcur : s.cur.toNat = s.outLen % 8192 := by rw [h.curOut, BitVec.toNat_ofNat]
  refine ⟨hcur, List.ext_getElem ?_ fun i hi _ => ?_, fun q => h.winByte_of_live⟩
  · rw [List.length_drop, List.length_map, List.length_range, hcur]
    change s.outLen - 8192 * (s.outLen / 8192) = _
    omega
  · rw [List.length_drop] at hi
    have hindex : 8192 * (s.outLen / 8192) + i < s.outLen := Nat.add_lt_of_lt_sub' hi
    have hcell : BitVec.ofNat 13 i = BitVec.ofNat 13 (8192 * (s.outLen / 8192) + i) := by bv_omega
    have hbyte := h.winByte_of_live hindex (by omega)
    rw [← hcell, List.getD_eq_getElem _ _ hindex] at hbyte
    rw [List.getElem_drop, List.getElem_map, List.getElem_range]
    exact hbyte.symm

end Sys2Proof.Machine
end

section
/-! PROOFS. The instance at rest (spec 43_host_commands.md R146, R149, R151, 70_reset_and_hazards.md R174): CMD.CLEAR, the
values of `CMD` without an operation, and what a step can change while no operation runs. -/

namespace Sys2Proof.Machine

/-- The codec's own step waits unless an operation runs (R174). -/
theorem CodecStep.eq_of_not_busy {s t : State} (h : CodecStep s t) (hrun : s.run ≠ .busy) : t = s := by
  cases h with
  | wait _ => rfl
  | encode hbusy _ => exact absurd hbusy hrun
  | decodeEnd hbusy _ _ => exact absurd hbusy hrun
  | flag hsel => exact absurd hsel.run_eq hrun
  | lit hsel => exact absurd hsel.run_eq hrun
  | matchTok _ hsel _ _ => exact absurd hsel.run_eq hrun
  | cutToken hsel _ => exact absurd hsel.run_eq hrun

/-- A step from a state that is not BUSY changes at most the host's input and its pending accesses, unless it restarts the
instance (R38, R41, R149, R174). -/
theorem step_resting_frame {s t : State} (hrun : s.run ≠ .busy) (h : step s = .next t) :
    t = { s with inBuf := t.inBuf, inLen := t.inLen, hostIn := t.hostIn } ∨ s.Restarts := by
  rcases step_cases h with ⟨e, rest, hin, haccess⟩ | ⟨l, hcodec⟩
  · cases haccess with
    | writeIn a b _ => exact .inl rfl
    | writeInLen n _ => exact .inl rfl
    | ignored v _ => exact .inl rfl
    | clear _ => exact .inr (.inl ⟨1, rest, hin, .inl rfl⟩)
    | encode _ => exact .inr (.inl ⟨2, rest, hin, .inr (.inl rfl)⟩)
    | decode _ => exact .inr (.inl ⟨3, rest, hin, .inr (.inr rfl)⟩)
    | hardReset => exact .inr (.inr ⟨rest, hin⟩)
  · rw [hcodec.eq_of_not_busy hrun]
    exact .inl rfl

/-- What the host reads of `OUT` depends on `STATUS.state` and `OUT` alone (R42, R151). -/
theorem readOut_congr {s t : State} (hrun : t.run = s.run) (hout : t.out = s.out) : readOut t = readOut s := by
  funext a
  rw [readOut, readOut, hrun, hout]

/-- Settles O17: a step from DONE that does not restart the instance writes neither `STATUS` nor `OUT`. -/
theorem resultStaysUntilNextCommand : Obligations.ResultStaysUntilNextCommand := by
  intro s t hdone h
  refine (step_resting_frame (by simp [hdone]) h).imp_left fun hframe => ?_
  have hrun : t.run = s.run := by rw [hframe]
  have hout : t.out = s.out := by rw [hframe]
  exact ⟨hrun.trans hdone, hout, congrFun (readOut_congr hrun hout)⟩

/-- Settles O11: the seven rows are no operations, and every value but 1, 2 and 3 decodes to one of them. -/
theorem otherCommandCodesChangeNothing : Obligations.OtherCommandCodesChangeNothing := by
  intro s
  refine ⟨rfl, fun _ => rfl, fun _ => rfl, fun _ => rfl, fun _ => rfl, fun _ => rfl, fun _ => rfl, fun v hv => ?_⟩
  have hother : v ≠ 1 ∧ v ≠ 2 ∧ v ≠ 3 := by bv_omega
  exact ⟨decodeCommand v, rfl, exec_decodeCommand_of_other hother s⟩

/-- Settles O12: the accepted command is CLEAR and the return to IDLE, and an empty table reads `WIN_FILL` or an empty
bucket. -/
theorem clearCommandClearsTheInstance : Obligations.ClearCommandClearsTheInstance := by
  intro s hrun
  have hexec : exec .cmdClear s = .next { clearInstance (accept .clear s) with run := .idle } :=
    command_of_not_busy hrun .clear fun t => { clearInstance t with run := .idle }
  exact ⟨_, hexec, winByte_of_win_nil rfl, bucket_of_idx_nil rfl, rfl⟩

end Sys2Proof.Machine
end

section
/-! PROOFS. What lasts while no command is accepted (spec 60_exceptions.md R168, R169, 70_reset_and_hazards.md R174): the
record of a fault, and the whole state of an instance that waits. -/

namespace Sys2Proof.Machine

/-- Settles O16: a step from FAULT that does not restart the instance writes neither a field of `STATUS` nor `ERR_POS`. -/
theorem faultIsSticky : Obligations.FaultIsSticky := by
  intro s t hfault h
  refine (step_resting_frame (by simp [hfault]) h).imp_left fun hframe => ?_
  rw [hframe]
  exact ⟨hfault, rfl, rfl, rfl⟩

/-- The codec's plan is to wait unless an operation runs (R174). -/
theorem planCodec_of_not_busy {s : State} (hrun : s.run ≠ .busy) : planCodec s = .move s :=
  ((planCodec_cases s).resolve_right (by simp [hrun])).2

/-- Settles O18: `pass` leaves the codec a step, which waits, and `await` has nothing to wait for. -/
theorem idleInstanceKeepsItsState : Obligations.IdleInstanceKeepsItsState := by
  intro s hrun
  refine ⟨fun hin => step_of_resting hin hrun, fun rest hin => step_of_plan_move ?_⟩
  rcases hin with hpass | hawait
  · rw [plan_of_hostIn_cons hpass, planHost]
    exact planCodec_of_not_busy (s := { s with hostIn := rest }) hrun
  · rw [plan_of_hostIn_cons hawait, planHost, if_neg hrun]

end Sys2Proof.Machine
end
